-- ==== Sys2Proof/Word.lean ====
section
/-! DEFINITION. The word types of the engine (spec/00_scope.md R8, R9: all quantities are unsigned). -/

namespace Sys2Proof

/-- One memory cell, one V register, one timer: 8 bits (10_state.md R20, R25, R26, R30). -/
abbrev Byte := BitVec 8

/-- An opcode, I, PC, a call-stack slot: 16 bits (10_state.md R22, R24, R27). -/
abbrev Word := BitVec 16

/-- The number of a V register: the `x` and `y` fields of an opcode (30_encoding.md R82, R83). -/
abbrev RegIdx := Fin 16

/-- VF, the one flag, is general register 15 (10_state.md R21). -/
abbrev vf : RegIdx := 15

end Sys2Proof
end

