-- ==== Sys2Proof/Config.lean ====
section
/-! DEFINITION. What the hardware fixes (spec/00_scope.md R7) and the free values of its two inputs.
The glyph bytes FONT stand in Machine/Font.lean. -/

namespace Sys2Proof.Config

/-- MEM_SIZE: addresses 0x000..0xFFF (10_state.md R30). -/
abbrev memSize : Nat := 4096

/-- FONT_BASE (10_state.md R33). -/
abbrev fontBase : Nat := 0x050

/-- PROG_BASE, the load address (50_host_interface.md R202). -/
abbrev progBase : Nat := 0x200

/-- PROG_MAX, the longest image `load_program` accepts: 4096 - 0x200 (50_host_interface.md R202). -/
abbrev progMax : Nat := 3584

/-- PC_RESET, the entry point (10_state.md R35, 70_reset_and_hazards.md R261). -/
abbrev pcReset : Word := 0x0200

/-- The keypad sample of the n-th step for which the state's port names none: FREE, no law on it
(50_host_interface.md R205 "Any of the 65536 combinations is legal"). DESIGN CHOICE, log 1, safe. -/
opaque freeKey : Nat → BitVec 16

/-- The random byte of the n-th step for which the state's port names none: FREE, no law on it
(50_host_interface.md R206 "The engine promises nothing about the distribution"). DESIGN CHOICE, log 1, safe. -/
opaque freeRnd : Nat → Byte

end Sys2Proof.Config
end

