-- ==== Sys2Proof/Syntax.lean ====
section
/-! DEFINITION. The 34 instructions: one constructor per row of the opcode table, in its order
(spec/30_encoding.md R85, R86). Field types carry the widths of R82, so every term is an instruction. -/

namespace Sys2Proof

/-- An instruction with its field values. `x`, `y` are register numbers, `n` a row count, `kk` an 8-bit and
`nnn` a 12-bit immediate (30_encoding.md R82, R83). -/
inductive Instr where
  /-- 00E0 `CLS` (44_display.md R180). -/
  | cls
  /-- 00EE `RET` (41_control_flow.md R120). -/
  | ret
  /-- 1nnn `JP nnn` (R121). -/
  | jp (nnn : BitVec 12)
  /-- 2nnn `CALL nnn` (R122). -/
  | call (nnn : BitVec 12)
  /-- 3xkk `SE Vx, kk` (R123). -/
  | seImm (x : RegIdx) (kk : Byte)
  /-- 4xkk `SNE Vx, kk` (R124). -/
  | sneImm (x : RegIdx) (kk : Byte)
  /-- 5xy0 `SE Vx, Vy` (R125). -/
  | seReg (x y : RegIdx)
  /-- 6xkk `LD Vx, kk` (42_alu.md R140). -/
  | ldImm (x : RegIdx) (kk : Byte)
  /-- 7xkk `ADD Vx, kk` (R141). -/
  | addImm (x : RegIdx) (kk : Byte)
  /-- 8xy0 `LD Vx, Vy` (R142). -/
  | ldReg (x y : RegIdx)
  /-- 8xy1 `OR Vx, Vy` (R143). -/
  | orReg (x y : RegIdx)
  /-- 8xy2 `AND Vx, Vy` (R144). -/
  | andReg (x y : RegIdx)
  /-- 8xy3 `XOR Vx, Vy` (R145). -/
  | xorReg (x y : RegIdx)
  /-- 8xy4 `ADD Vx, Vy` (R146). -/
  | addReg (x y : RegIdx)
  /-- 8xy5 `SUB Vx, Vy` (R147). -/
  | sub (x y : RegIdx)
  /-- 8xy6 `SHR Vx`: `y` is a don't-care field, kept so that the word can be written back (R148, R88, R151). -/
  | shr (x y : RegIdx)
  /-- 8xy7 `SUBN Vx, Vy` (R149). -/
  | subn (x y : RegIdx)
  /-- 8xyE `SHL Vx`: `y` is a don't-care field (R150, R88, R151). -/
  | shl (x y : RegIdx)
  /-- 9xy0 `SNE Vx, Vy` (41_control_flow.md R126). -/
  | sneReg (x y : RegIdx)
  /-- Annn `LD I, nnn` (43_index_memory.md R160). -/
  | ldI (nnn : BitVec 12)
  /-- Bnnn `JP V0, nnn` (41_control_flow.md R127). -/
  | jpV0 (nnn : BitVec 12)
  /-- Cxkk `RND Vx, kk` (42_alu.md R152). -/
  | rnd (x : RegIdx) (kk : Byte)
  /-- Dxyn `DRW Vx, Vy, n` (44_display.md R181). -/
  | drw (x y : RegIdx) (n : Fin 16)
  /-- Ex9E `SKP Vx` (45_keypad_timers.md R190). -/
  | skp (x : RegIdx)
  /-- ExA1 `SKNP Vx` (R191). -/
  | sknp (x : RegIdx)
  /-- Fx07 `LD Vx, DT` (R192). -/
  | ldVxDt (x : RegIdx)
  /-- Fx0A `LD Vx, K` (R193). -/
  | ldVxK (x : RegIdx)
  /-- Fx15 `LD DT, Vx` (R194). -/
  | ldDtVx (x : RegIdx)
  /-- Fx18 `LD ST, Vx` (R195). -/
  | ldStVx (x : RegIdx)
  /-- Fx1E `ADD I, Vx` (43_index_memory.md R161). -/
  | addI (x : RegIdx)
  /-- Fx29 `LD F, Vx` (R162). -/
  | ldF (x : RegIdx)
  /-- Fx33 `LD B, Vx` (R163). -/
  | ldB (x : RegIdx)
  /-- Fx55 `LD [I], Vx` (R164). -/
  | ldMemVx (x : RegIdx)
  /-- Fx65 `LD Vx, [I]` (R165). -/
  | ldVxMem (x : RegIdx)
  deriving DecidableEq, Repr

end Sys2Proof
end

