-- ==== Sys2Proof/Decode.lean ====
section
/-! DEFINITION. The decoder, a pure function of the 16 fetched bits (spec/30_encoding.md R84, R89), and the encoder,
both written from the fields of R82 and the patterns of R85. -/

namespace Sys2Proof

/-! The fields of an opcode (30_encoding.md R82). -/

/-- `op[15:12]`, the primary opcode. -/
def opFamily (op : Word) : BitVec 4 := op.extractLsb' 12 4

/-- `op[11:8]`, a register number. -/
def opX (op : Word) : RegIdx := (op.extractLsb' 8 4).toFin

/-- `op[7:4]`, a register number. -/
def opY (op : Word) : RegIdx := (op.extractLsb' 4 4).toFin

/-- `op[3:0]`, a row count or the selector of families 5, 8, 9. -/
def opN (op : Word) : Fin 16 := (op.extractLsb' 0 4).toFin

/-- `op[7:0]`, an immediate or the selector of families E, F. -/
def opKk (op : Word) : Byte := op.extractLsb' 0 8

/-- `op[11:0]`, an address immediate. -/
def opNnn (op : Word) : BitVec 12 := op.extractLsb' 0 12

/-- Family 0x8, by its low nibble (30_encoding.md R84). -/
def decodeFamily8 (op : Word) : Option Instr :=
  match (opN op).val with
  | 0x0 => some (.ldReg (opX op) (opY op))
  | 0x1 => some (.orReg (opX op) (opY op))
  | 0x2 => some (.andReg (opX op) (opY op))
  | 0x3 => some (.xorReg (opX op) (opY op))
  | 0x4 => some (.addReg (opX op) (opY op))
  | 0x5 => some (.sub (opX op) (opY op))
  | 0x6 => some (.shr (opX op) (opY op))
  | 0x7 => some (.subn (opX op) (opY op))
  | 0xE => some (.shl (opX op) (opY op))
  | _ => none

/-- Family 0xE, by its low byte (30_encoding.md R84). -/
def decodeFamilyE (op : Word) : Option Instr :=
  match (opKk op).toNat with
  | 0x9E => some (.skp (opX op))
  | 0xA1 => some (.sknp (opX op))
  | _ => none

/-- Family 0xF, by its low byte (30_encoding.md R84). -/
def decodeFamilyF (op : Word) : Option Instr :=
  match (opKk op).toNat with
  | 0x07 => some (.ldVxDt (opX op))
  | 0x0A => some (.ldVxK (opX op))
  | 0x15 => some (.ldDtVx (opX op))
  | 0x18 => some (.ldStVx (opX op))
  | 0x1E => some (.addI (opX op))
  | 0x29 => some (.ldF (opX op))
  | 0x33 => some (.ldB (opX op))
  | 0x55 => some (.ldMemVx (opX op))
  | 0x65 => some (.ldVxMem (opX op))
  | _ => none

/-- `decode(op)` of 30_encoding.md R84: the one instruction the word is, or `none` for UNKNOWN (R87). In family 0 all
16 bits are compared; families 5 and 9 need low nibble 0 (decision D1 of 92_eei_decisions.md). -/
def decodeWord (op : Word) : Option Instr :=
  match (opFamily op).toNat with
  | 0x0 => if op = 0x00E0 then some .cls else if op = 0x00EE then some .ret else none
  | 0x1 => some (.jp (opNnn op))
  | 0x2 => some (.call (opNnn op))
  | 0x3 => some (.seImm (opX op) (opKk op))
  | 0x4 => some (.sneImm (opX op) (opKk op))
  | 0x5 => if opN op = 0 then some (.seReg (opX op) (opY op)) else none
  | 0x6 => some (.ldImm (opX op) (opKk op))
  | 0x7 => some (.addImm (opX op) (opKk op))
  | 0x8 => decodeFamily8 op
  | 0x9 => if opN op = 0 then some (.sneReg (opX op) (opY op)) else none
  | 0xA => some (.ldI (opNnn op))
  | 0xB => some (.jpV0 (opNnn op))
  | 0xC => some (.rnd (opX op) (opKk op))
  | 0xD => some (.drw (opX op) (opY op) (opN op))
  | 0xE => decodeFamilyE op
  | _ => decodeFamilyF op

/-- The opcode two bytes form, the one at the lower address high (20_memory.md R54: `MEM[PC] * 256 + MEM[PC+1]`). -/
def wordOfBytes (hi lo : Byte) : Word := hi ++ lo

/-- The high byte of a word, which stands at the lower address (30_encoding.md R80). -/
def highByte (w : Word) : Byte := w.extractLsb' 8 8

/-- The low byte of a word. -/
def lowByte (w : Word) : Byte := w.extractLsb' 0 8

/-- Why a byte sequence is no instruction. -/
inductive DecodeError where
  /-- Fewer than the two bytes of an instruction (30_encoding.md R80). -/
  | truncated
  /-- The word matches no row of the table (30_encoding.md R87). -/
  | unknownOpcode (op : Word)
  deriving DecidableEq, Repr

/-- Decode the instruction at the head of a byte sequence and give the bytes after it. -/
def decode : List Byte → Except DecodeError (Instr × List Byte)
  | hi :: lo :: rest =>
    match decodeWord (wordOfBytes hi lo) with
    | some i => .ok (i, rest)
    | none => .error (.unknownOpcode (wordOfBytes hi lo))
  | _ => .error .truncated

/-! The encoder, by the six formats of 30_encoding.md R81. -/

/-- Format F_NNN: family, nnn. -/
def wordNnn (family : BitVec 4) (nnn : BitVec 12) : Word := family ++ nnn

/-- Format F_XKK: family, x, kk; also F_X with `kk` its fixed selector. -/
def wordXkk (family : BitVec 4) (x : RegIdx) (kk : Byte) : Word := family ++ (BitVec.ofFin x : BitVec 4) ++ kk

/-- Format F_XYN: family, x, y, n; also F_XY with `n` its fixed selector. -/
def wordXyn (family : BitVec 4) (x y : RegIdx) (n : Fin 16) : Word :=
  family ++ (BitVec.ofFin x : BitVec 4) ++ (BitVec.ofFin y : BitVec 4) ++ (BitVec.ofFin n : BitVec 4)

/-- The word of an instruction (column pattern of 30_encoding.md R85). -/
def encodeWord : Instr → Word
  | .cls => 0x00E0
  | .ret => 0x00EE
  | .jp nnn => wordNnn 0x1 nnn
  | .call nnn => wordNnn 0x2 nnn
  | .seImm x kk => wordXkk 0x3 x kk
  | .sneImm x kk => wordXkk 0x4 x kk
  | .seReg x y => wordXyn 0x5 x y 0x0
  | .ldImm x kk => wordXkk 0x6 x kk
  | .addImm x kk => wordXkk 0x7 x kk
  | .ldReg x y => wordXyn 0x8 x y 0x0
  | .orReg x y => wordXyn 0x8 x y 0x1
  | .andReg x y => wordXyn 0x8 x y 0x2
  | .xorReg x y => wordXyn 0x8 x y 0x3
  | .addReg x y => wordXyn 0x8 x y 0x4
  | .sub x y => wordXyn 0x8 x y 0x5
  | .shr x y => wordXyn 0x8 x y 0x6
  | .subn x y => wordXyn 0x8 x y 0x7
  | .shl x y => wordXyn 0x8 x y 0xE
  | .sneReg x y => wordXyn 0x9 x y 0x0
  | .ldI nnn => wordNnn 0xA nnn
  | .jpV0 nnn => wordNnn 0xB nnn
  | .rnd x kk => wordXkk 0xC x kk
  | .drw x y n => wordXyn 0xD x y n
  | .skp x => wordXkk 0xE x 0x9E
  | .sknp x => wordXkk 0xE x 0xA1
  | .ldVxDt x => wordXkk 0xF x 0x07
  | .ldVxK x => wordXkk 0xF x 0x0A
  | .ldDtVx x => wordXkk 0xF x 0x15
  | .ldStVx x => wordXkk 0xF x 0x18
  | .addI x => wordXkk 0xF x 0x1E
  | .ldF x => wordXkk 0xF x 0x29
  | .ldB x => wordXkk 0xF x 0x33
  | .ldMemVx x => wordXkk 0xF x 0x55
  | .ldVxMem x => wordXkk 0xF x 0x65

/-- The two bytes of an instruction as memory holds them, high byte at the lower address (30_encoding.md R80). -/
def encode (i : Instr) : List Byte := [highByte (encodeWord i), lowByte (encodeWord i)]

/-- The opcode that `nbits` bits of an opcode-table row number, bits above them zero. -/
def tableWord (nbits w : Nat) : Word := BitVec.ofNat 16 (w % 2 ^ nbits)

/-- What the decoder reads from an instruction whose bits are `w`, numbered as spec/opcode_table.json numbers them, laid
out as memory holds it (the high byte first, 20_memory.md R54). -/
def decodeTableWord (nbits w : Nat) : Option Instr :=
  match decode [highByte (tableWord nbits w), lowByte (tableWord nbits w)] with
  | .ok (i, _) => some i
  | .error _ => none

end Sys2Proof
end

