-- ==== Sys2Proof/Machine/Font.lean ====
section
/-! DEFINITION. FONT[0..79], the built-in glyphs, and the reset contents of memory (spec/10_state.md R30, R33, R35). -/

namespace Sys2Proof.Machine

/-- FONT[0..79], five bytes per hexadecimal digit, top row first: the table of 10_state.md R33. PRESUMED (the spec
supplies the values from general knowledge, decision D17), log 4, unsafe for a claim about what a glyph looks like. -/
def font : List Byte :=
  [0xF0, 0x90, 0x90, 0x90, 0xF0] ++ [0x20, 0x60, 0x20, 0x20, 0x70] ++
  [0xF0, 0x10, 0xF0, 0x80, 0xF0] ++ [0xF0, 0x10, 0xF0, 0x10, 0xF0] ++
  [0x90, 0x90, 0xF0, 0x10, 0x10] ++ [0xF0, 0x80, 0xF0, 0x10, 0xF0] ++
  [0xF0, 0x80, 0xF0, 0x90, 0xF0] ++ [0xF0, 0x10, 0x20, 0x40, 0x40] ++
  [0xF0, 0x90, 0xF0, 0x90, 0xF0] ++ [0xF0, 0x90, 0xF0, 0x10, 0xF0] ++
  [0xF0, 0x90, 0xF0, 0x90, 0x90] ++ [0xE0, 0x90, 0xE0, 0x90, 0xE0] ++
  [0xF0, 0x80, 0x80, 0x80, 0xF0] ++ [0xE0, 0x90, 0x90, 0x90, 0xE0] ++
  [0xF0, 0x80, 0xF0, 0x80, 0xF0] ++ [0xF0, 0x80, 0xF0, 0x80, 0x80]

/-- The byte at address `a` right after reset, which is what an unlisted address reads as: the font at
0x050..0x09F, 0x00 everywhere else (10_state.md R35; the zeros are decision D18, log 5). -/
def resetByte (a : Nat) : Byte :=
  if Config.fontBase ≤ a then font.getD (a - Config.fontBase) 0 else 0

end Sys2Proof.Machine
end

