-- ==== Sys2Proof/Machine/State.lean ====
section
/-! DEFINITION. The state of the engine as plain data: the tuple at the head of spec/10_state.md, and a port that carries
what the spec passes in and out of one `step` (its two inputs and its event). -/

namespace Sys2Proof.Machine

/-- MEM as (address, byte) pairs in one canonical form (Machine/Memory.lean says which). -/
abbrev Memory := List Host.Cell

/-- FB: 32 rows of 64 pixels, `fb[yy][xx]`, row 0 first, on = true (10_state.md R29). -/
abbrev Framebuffer := Vector (Vector Bool 64) 32

/-- FAULT_CAUSE: which fatal fault set HALT (10_state.md R31, 60_exceptions.md R230). Codes 5 to 7 of its three bits
are never produced, so they are no value here (DESIGN CHOICE, log 8, safe). -/
inductive FaultCause where
  /-- 0: no fault since reset. -/
  | none
  /-- 1: the fetch reaches past 4095 (60_exceptions.md R231). -/
  | fetchOutOfRange
  /-- 2: 2nnn with a full stack (R232). -/
  | stackOverflow
  /-- 3: 00EE with an empty stack (R233). -/
  | stackUnderflow
  /-- 4: Dxyn, Fx33, Fx55 or Fx65 reaching past 4095 (R234). -/
  | memOutOfRange
  deriving DecidableEq, Repr

/-- What one step returns (40_step_cycle.md R108). -/
inductive Event where
  /-- EV_NONE -/
  | none
  /-- EV_UNKNOWN(op, pc): the opcode matched no pattern; `pc` is the advanced PC (60_exceptions.md R238). -/
  | unknown (op pc : Word)
  /-- EV_FAULT(cause, op, pc): a fatal fault was raised (60_exceptions.md R236). -/
  | fault (cause : FaultCause) (op pc : Word)
  deriving DecidableEq, Repr

/-- One presentation of the two inputs: KEY, bit `i` = key `i` pressed, and RND (50_host_interface.md R205, R206). -/
structure Sample where
  key : BitVec 16
  rnd : Byte
  deriving DecidableEq, Repr

/-- The boundary of one `step`: MODEL'S OWN FIELDS, since `step` takes a state and answers a state while the spec's
`step(KEY, RND)` also takes two inputs and returns an event (log 1, log 2; DESIGN CHOICE, safe). -/
structure Port where
  /-- The samples the host will present, the next step's first. -/
  queue : List Sample
  /-- How many steps found the queue empty and took a free sample (Config.freeKey, Config.freeRnd). -/
  drawn : Nat
  /-- KEY as sampled for the step being executed (00_scope.md R11). -/
  key : BitVec 16
  /-- RND as sampled for the step being executed (00_scope.md R11). -/
  rnd : Byte
  /-- The event the latest step returned (50_host_interface.md R209). -/
  event : Event
  deriving DecidableEq, Repr

/-- The state of the engine (10_state.md, head: "and nothing else"), and its port. -/
structure State where
  /-- V0..VF (10_state.md R20); VF is the flag (R21). -/
  v : Vector Byte 16
  /-- I, the index register (R24). -/
  i : Word
  /-- PC (R22). -/
  pc : Word
  /-- STACK[0..15] (R27). -/
  stack : Vector Word 16
  /-- SP, the number of used slots, 0..16 (R28). -/
  sp : Fin 17
  /-- DT, the delay timer (R25). -/
  dt : Byte
  /-- ST, the sound timer (R26). -/
  st : Byte
  /-- FB (R29). -/
  fb : Framebuffer
  /-- MEM (R30). -/
  mem : Memory
  /-- HALT: a fatal fault has happened (R31). -/
  halt : Bool
  /-- FAULT_CAUSE (R31). -/
  faultCause : FaultCause
  /-- FAULT_OPCODE (R31). -/
  faultOpcode : Word
  /-- The model's own: inputs and event of a step (log 1, log 2). -/
  port : Port
  deriving DecidableEq, Repr

/-- The reasons a step can stop with a fault: none. Every error of the engine has an entry the spec describes (the latch
of 60_exceptions.md R236, a report of R238) and so is a NEXT state (log 6); nobody raises a Fault, which is safe and
unsafe of nothing. "no opcode is ever without an outcome" (40_step_cycle.md R106). -/
inductive Fault where
  deriving DecidableEq, Repr

/-- The reasons a step can be refused. -/
inductive Refusal where
  /-- Raised only by an arm of `exec` whose instruction has no meaning yet (safe: the model stops). All 34 have one. -/
  | notModelled (mnemonic : String)
  deriving DecidableEq, Repr

/-- The port before the first step: nothing presented, so the first steps draw free inputs. DESIGN CHOICE, log 3: `key`
and `rnd` are overwritten before anything reads them, and no statement rests on these values. -/
def Port.reset : Port where
  queue := []
  drawn := 0
  key := 0
  rnd := 0
  event := .none

/-- The engine right after `reset`, every value by the table of 10_state.md R35 (70_reset_and_hazards.md R260). Memory
lists nothing: an unlisted address reads as its reset contents (Machine/Font.lean). -/
def State.reset : State where
  v := Vector.replicate 16 0
  i := 0x0000
  pc := Config.pcReset
  stack := Vector.replicate 16 0x0000
  sp := 0
  dt := 0
  st := 0
  fb := Vector.replicate 32 (Vector.replicate 64 false)
  mem := []
  halt := false
  faultCause := .none
  faultOpcode := 0x0000
  port := Port.reset

end Sys2Proof.Machine
end

