-- ==== Sys2Proof/Machine/Memory.lean ====
section
/-! DEFINITION. MEM as a canonical list of cells: reads, writes and the form they keep (spec/20_memory.md). -/

namespace Sys2Proof.Machine

/-- The canonical form: addresses strictly rising, all inside 0x000..0xFFF, and no cell equal to what an unlisted address
reads as. Equal memories are then equal lists. -/
abbrev Memory.wf (m : Memory) : Prop :=
  m.Pairwise (fun p q => p.1 < q.1) ∧ ∀ c ∈ m, c.1 < Config.memSize ∧ c.2 ≠ resetByte c.1

/-- `MemRead(addr, 1)`: the latest byte written there, else the reset contents (00_scope.md R11, 20_memory.md R60). -/
def Memory.read : Memory → Nat → Byte
  | [], a => resetByte a
  | (k, b) :: rest, a => if k = a then b else Memory.read rest a

/-- Without the cells of address `a`, which then reads as its reset contents. -/
def Memory.erase (m : Memory) (a : Nat) : Memory := m.filter (fun c => c.1 != a)

/-- A cell put in front of the first higher address. -/
def Memory.insert (a : Nat) (b : Byte) : Memory → Memory
  | [] => [(a, b)]
  | (k, c) :: rest => if a < k then (a, b) :: (k, c) :: rest else (k, c) :: Memory.insert a b rest

/-- `MemWrite(addr, 1, v)` (00_scope.md R11); the caller has checked the address (20_memory.md R58). Writing what an
unlisted address reads as removes the cell, which keeps the form canonical. -/
def Memory.write (m : Memory) (a : Nat) (b : Byte) : Memory :=
  if b = resetByte a then m.erase a else (m.erase a).insert a b

/-- Single-byte writes at ascending addresses (20_memory.md R55). -/
def Memory.writeBytes (m : Memory) (a : Nat) : List Byte → Memory
  | [] => m
  | b :: bs => Memory.writeBytes (m.write a b) (a + 1) bs

/-- Single-byte reads at ascending addresses (20_memory.md R55). -/
def Memory.readBytes (m : Memory) (a : Nat) : Nat → List Byte
  | 0 => []
  | len + 1 => m.read a :: Memory.readBytes m (a + 1) len

end Sys2Proof.Machine
end

