-- ==== Sys2Proof/Machine/Ops.lean ====
section
/-! DEFINITION. The named operations over the state: registers, memory, the phases of a step before dispatch
(spec/40_step_cycle.md R100 to R104), fault entry and the unknown-opcode report (60_exceptions.md R236, R238). -/

namespace Sys2Proof.Machine

/-! Registers -/

/-- `V[x]` (00_scope.md R11). -/
def State.reg (s : State) (x : RegIdx) : Byte := s.v[x.val]

/-- `V[x] <- b`. None of the sixteen is hardwired (10_state.md R20). -/
def State.setReg (s : State) (x : RegIdx) (b : Byte) : State := { s with v := s.v.set x.val b x.isLt }

/-- The register (or key) a number names, by its low 4 bits. -/
def lowNibble (k : Nat) : Fin 16 := ⟨k % 16, Nat.mod_lt k (by decide)⟩

/-- `I <- w` -/
def State.setI (s : State) (w : Word) : State := { s with i := w }

/-- `PC <- w`; a target is not checked when it is written (41_control_flow.md R128). -/
def State.setPc (s : State) (w : Word) : State := { s with pc := w }

/-- `DT <- b` -/
def State.setDt (s : State) (b : Byte) : State := { s with dt := b }

/-- `ST <- b` -/
def State.setSt (s : State) (b : Byte) : State := { s with st := b }

/-- Replace the picture. -/
def State.setFb (s : State) (f : Framebuffer) : State := { s with fb := f }

/-! Memory -/

/-- `MemRead(a, 1)`. -/
def State.readByte (s : State) (a : Nat) : Byte := s.mem.read a

/-- Bytes stored at `a`, `a + 1`, ... (20_memory.md R55). -/
def State.storeBytes (s : State) (a : Nat) (bytes : List Byte) : State := { s with mem := s.mem.writeBytes a bytes }

/-- Bytes loaded into V0, V1, ... from `a`, `a + 1`, ...: `count` registers, ascending (43_index_memory.md R165). -/
def State.loadRegs (s : State) (a : Nat) : Nat → State
  | 0 => s
  | k + 1 => (s.loadRegs a k).setReg (lowNibble k) (s.readByte (a + k))

/-! Fault entry and report -/

/-- `raise cause(op)`: the latch and the event, nothing else (60_exceptions.md R236; R231 for the fetch). PC is reported as
it stands. Control goes nowhere, and there is no return but the host's `reset` (R237). -/
def State.raise (s : State) (cause : FaultCause) (op : Word) : State :=
  { s with
    halt := true
    faultCause := cause
    faultOpcode := op
    port := { s.port with event := .fault cause op s.pc } }

/-- `report UnknownOpcode(op, PC)`: the event, nothing latched (60_exceptions.md R238). -/
def State.reportUnknown (s : State) (op : Word) : State :=
  { s with port := { s.port with event := .unknown op s.pc } }

/-! The phases of a step before dispatch (40_step_cycle.md R100) -/

/-- The sample of the next step: the first the host will present, else free values (50_host_interface.md R205, R206). -/
def Port.next (p : Port) : Sample :=
  match p.queue with
  | x :: _ => x
  | [] => ⟨Config.freeKey p.drawn, Config.freeRnd p.drawn⟩

/-- How many free samples have been drawn once the next sample is taken. -/
def Port.drawnAfter (p : Port) : Nat :=
  match p.queue with
  | _ :: _ => p.drawn
  | [] => p.drawn + 1

/-- Begin a step: KEY and RND are sampled once (50_host_interface.md R205), and the event is EV_NONE until the step says
otherwise (40_step_cycle.md R108). -/
def Port.begin (p : Port) : Port where
  queue := p.queue.tail
  drawn := p.drawnAfter
  key := p.next.key
  rnd := p.next.rnd
  event := .none

/-- The state at the start of a step, its inputs sampled. -/
def State.begin (s : State) : State := { s with port := s.port.begin }

/-- The host presents `KEY` and `RND` to the next step (50_host_interface.md R203). -/
def State.present (s : State) (key : BitVec 16) (rnd : Byte) : State :=
  { s with port := { s.port with queue := ⟨key, rnd⟩ :: s.port.queue } }

/-- Phase 1's bound: both bytes lie in memory, over the natural numbers (20_memory.md R59). -/
def State.fetchable (s : State) : Bool := s.pc.toNat + 1 ≤ 4095

/-- Phase 1: `op <- MEM[PC] * 256 + MEM[PC+1]` (20_memory.md R54). -/
def State.fetchWord (s : State) : Word := wordOfBytes (s.readByte s.pc.toNat) (s.readByte (s.pc.toNat + 1))

/-- `PC <- (PC + 2) mod 65536`: phase 2 (40_step_cycle.md R103), and a skip once more (R109). -/
def State.advance (s : State) : State := s.setPc (s.pc + 2)

/-- A timer's decrement: by 1 when non-zero, never below 0 (10_state.md R25). -/
def timerTick (t : Byte) : Byte := if t = 0 then 0 else t - 1

/-- Phase 3: each timer alone (40_step_cycle.md R104). -/
def State.tick (s : State) : State := { s with dt := timerTick s.dt, st := timerTick s.st }

/-- Phases 2 and 3, for every opcode, known or unknown (40_step_cycle.md R103, R104). -/
def State.enter (s : State) : State := s.advance.tick

/-- Place an opcode at PC, high byte first, where the next fetch reads it (20_memory.md R54). Nothing else changes; a PC
from which nothing can be fetched is left alone (log 7). -/
def State.placeWord (s : State) (w : Word) : State :=
  if s.fetchable then s.storeBytes s.pc.toNat [highByte w, lowByte w] else s

end Sys2Proof.Machine
end

