-- ==== Sys2Proof/Machine/Flags.lean ====
section
/-! DEFINITION. VF, the one flag (spec/10_state.md R21): its values and the order in which an instruction writes its result
and VF (40_step_cycle.md R107, 42_alu.md R153). -/

namespace Sys2Proof.Machine

/-- A flag as VF holds it: 1 or 0. -/
def flagByte (c : Bool) : Byte := if c then 1 else 0

/-- Carry of 8xy4: the true sum exceeds 255 (42_alu.md R146). -/
def carryOut (a b : Byte) : Bool := 255 < a.toNat + b.toNat

/-- No borrow of 8xy5 and 8xy7: minuend >= subtrahend, unsigned (42_alu.md R147, R149). -/
def noBorrow (minuend subtrahend : Byte) : Bool := subtrahend.toNat ≤ minuend.toNat

/-- The bit 8xy6 shifts out: `a[0]` (42_alu.md R148). -/
def lowBit (a : Byte) : Bool := a.getLsbD 0

/-- The bit 8xyE shifts out: `a[7]` (42_alu.md R150). -/
def highBit (a : Byte) : Bool := a.getLsbD 7

/-- The row lists the result first: on `x = F` the flag stays (8xy4; 42_alu.md R153, decision D10, log 10). -/
def State.resultThenFlag (s : State) (x : RegIdx) (result : Byte) (c : Bool) : State :=
  (s.setReg x result).setReg vf (flagByte c)

/-- The row lists the flag first: on `x = F` the result stays (8xy5, 8xy6, 8xy7, 8xyE; 42_alu.md R153, decision D10,
log 10). -/
def State.flagThenResult (s : State) (x : RegIdx) (c : Bool) (result : Byte) : State :=
  (s.setReg vf (flagByte c)).setReg x result

end Sys2Proof.Machine
end

