-- ==== Sys2Proof/Machine/Operands.lean ====
section
/-! DEFINITION. The operand forms (spec/30_encoding.md R83, 43_index_memory.md R166, 45_keypad_timers.md R196): immediates,
the bytes reached through I, the keys. -/

namespace Sys2Proof.Machine

/-- `zext_16(nnn)` (30_encoding.md R83). -/
def addrImm (nnn : BitVec 12) : Word := nnn.setWidth 16

/-- `zext_16(b)`, a byte added to a 16-bit register. -/
def wideByte (b : Byte) : Word := b.setWidth 16

/-- A transfer of `len` bytes at I is out of range: `len > 0` and the last address `I + len - 1` lies above 4095, over the
natural numbers, no wrap (20_memory.md R58, decisions D4 and D29). -/
def State.outOfRange (s : State) (len : Nat) : Bool := 0 < len && 4095 < s.i.toNat + len - 1

/-- An instruction that moves `len` bytes at I: checked whole before its first access (20_memory.md R58); out of range it
raises MEM_OUT_OF_RANGE and does nothing of its own (60_exceptions.md R234). -/
def State.guardAccess (s : State) (len : Nat) (op : Word) (done : State) : State :=
  if s.outOfRange len then s.raise .memOutOfRange op else done

/-- KEY[k] as sampled for this step (00_scope.md R11). -/
def State.keyDown (s : State) (k : Fin 16) : Bool := s.port.key.getLsbD k.val

/-- The key Ex9E and ExA1 test: the low 4 bits of Vx (45_keypad_timers.md R196, decision D15, log 11). -/
def keyIndex (b : Byte) : Fin 16 := lowNibble b.toNat

/-- The least pressed key, if any (45_keypad_timers.md R193, decision D14, log 11). -/
def firstKey (key : BitVec 16) : Option Nat := (List.range 16).find? (fun k => key.getLsbD k)

/-- The three decimal digits of a byte: hundreds, tens, ones (43_index_memory.md R163). -/
def decimalDigits (a : Byte) : List Byte :=
  [BitVec.ofNat 8 (a.toNat / 100), BitVec.ofNat 8 (a.toNat / 10 % 10), BitVec.ofNat 8 (a.toNat % 10)]

/-- V0..Vx, in order (43_index_memory.md R164: `x` is a count). -/
def State.regsUpTo (s : State) (x : RegIdx) : List Byte := s.v.toList.take (x.val + 1)

/-- Skip the next instruction if `c` (40_step_cycle.md R109). -/
def State.skipIf (s : State) (c : Bool) : State := if c then s.advance else s

end Sys2Proof.Machine
end

