-- ==== Sys2Proof/Machine/Alu.lean ====
section
/-! DEFINITION. Register load, arithmetic, logic, shift, random: 6xkk, 7xkk, 8xy0 to 8xyE, Cxkk (spec/42_alu.md). Operands
are read from the state before the first write (40_step_cycle.md R107). -/

namespace Sys2Proof.Machine

/-- 6xkk `LD Vx, kk` (42_alu.md R140). -/
def execLdImm (x : RegIdx) (kk : Byte) (s : State) : Host.Outcome State Fault Refusal := .next (s.setReg x kk)

/-- 7xkk `ADD Vx, kk`: modulo 256, no flag (R141). -/
def execAddImm (x : RegIdx) (kk : Byte) (s : State) : Host.Outcome State Fault Refusal :=
  .next (s.setReg x (s.reg x + kk))

/-- 8xy0 `LD Vx, Vy` (R142). -/
def execLdReg (x y : RegIdx) (s : State) : Host.Outcome State Fault Refusal := .next (s.setReg x (s.reg y))

/-- 8xy1 `OR Vx, Vy`: VF is not written (R143, decision D12). -/
def execOrReg (x y : RegIdx) (s : State) : Host.Outcome State Fault Refusal := .next (s.setReg x (s.reg x ||| s.reg y))

/-- 8xy2 `AND Vx, Vy` (R144, decision D12). -/
def execAndReg (x y : RegIdx) (s : State) : Host.Outcome State Fault Refusal :=
  .next (s.setReg x (s.reg x &&& s.reg y))

/-- 8xy3 `XOR Vx, Vy` (R145, decision D12). -/
def execXorReg (x y : RegIdx) (s : State) : Host.Outcome State Fault Refusal :=
  .next (s.setReg x (s.reg x ^^^ s.reg y))

/-- 8xy4 `ADD Vx, Vy`: sum, then carry into VF (R146). -/
def execAddReg (x y : RegIdx) (s : State) : Host.Outcome State Fault Refusal :=
  .next (s.resultThenFlag x (s.reg x + s.reg y) (carryOut (s.reg x) (s.reg y)))

/-- 8xy5 `SUB Vx, Vy`: no-borrow into VF, then the difference (R147). -/
def execSub (x y : RegIdx) (s : State) : Host.Outcome State Fault Refusal :=
  .next (s.flagThenResult x (noBorrow (s.reg x) (s.reg y)) (s.reg x - s.reg y))

/-- 8xy6 `SHR Vx`: bit 0 into VF, then Vx >> 1; Vy is neither read nor written (R148, R151). -/
def execShr (x _y : RegIdx) (s : State) : Host.Outcome State Fault Refusal :=
  .next (s.flagThenResult x (lowBit (s.reg x)) (s.reg x >>> 1))

/-- 8xy7 `SUBN Vx, Vy`: no-borrow into VF, then Vy - Vx (R149). -/
def execSubn (x y : RegIdx) (s : State) : Host.Outcome State Fault Refusal :=
  .next (s.flagThenResult x (noBorrow (s.reg y) (s.reg x)) (s.reg y - s.reg x))

/-- 8xyE `SHL Vx`: bit 7 into VF, then Vx << 1; Vy is neither read nor written (R150, R151). -/
def execShl (x _y : RegIdx) (s : State) : Host.Outcome State Fault Refusal :=
  .next (s.flagThenResult x (highBit (s.reg x)) (s.reg x <<< 1))

/-- Cxkk `RND Vx, kk`: this step's random byte AND kk (R152). -/
def execRnd (x : RegIdx) (kk : Byte) (s : State) : Host.Outcome State Fault Refusal :=
  .next (s.setReg x (s.port.rnd &&& kk))

end Sys2Proof.Machine
end

