-- ==== Sys2Proof/Machine/Control.lean ====
section
/-! DEFINITION. Control transfer: 00EE, 1nnn, 2nnn, 3xkk, 4xkk, 5xy0, 9xy0, Bnnn (spec/41_control_flow.md). Each is phase 5
of the step: PC is already the fetch address plus 2 and the timers have ticked. -/

namespace Sys2Proof.Machine

/-- Pop: `SP <- SP - 1; PC <- STACK[SP]`, the slot kept (10_state.md R28); with an empty stack STACK_UNDERFLOW
(60_exceptions.md R233). -/
def State.popPc (s : State) (op : Word) : State :=
  if h : s.sp.val = 0 then s.raise .stackUnderflow op
  else { s with sp := ⟨s.sp.val - 1, by omega⟩, pc := s.stack[s.sp.val - 1]'(by omega) }

/-- Push and jump: `STACK[SP] <- PC; SP <- SP + 1; PC <- target`; with a full stack STACK_OVERFLOW
(60_exceptions.md R232). -/
def State.pushPc (s : State) (op : Word) (target : Word) : State :=
  if h : s.sp.val < 16 then
    { s with stack := s.stack.set s.sp.val s.pc h, sp := ⟨s.sp.val + 1, by omega⟩, pc := target }
  else s.raise .stackOverflow op

/-- 00EE `RET` (41_control_flow.md R120). -/
def execRet (s : State) : Host.Outcome State Fault Refusal := .next (s.popPc (encodeWord .ret))

/-- 1nnn `JP nnn` (R121). -/
def execJp (nnn : BitVec 12) (s : State) : Host.Outcome State Fault Refusal := .next (s.setPc (addrImm nnn))

/-- 2nnn `CALL nnn` (R122). -/
def execCall (nnn : BitVec 12) (s : State) : Host.Outcome State Fault Refusal :=
  .next (s.pushPc (encodeWord (.call nnn)) (addrImm nnn))

/-- 3xkk `SE Vx, kk` (R123). -/
def execSeImm (x : RegIdx) (kk : Byte) (s : State) : Host.Outcome State Fault Refusal := .next (s.skipIf (s.reg x == kk))

/-- 4xkk `SNE Vx, kk` (R124). -/
def execSneImm (x : RegIdx) (kk : Byte) (s : State) : Host.Outcome State Fault Refusal :=
  .next (s.skipIf (s.reg x != kk))

/-- 5xy0 `SE Vx, Vy` (R125). -/
def execSeReg (x y : RegIdx) (s : State) : Host.Outcome State Fault Refusal := .next (s.skipIf (s.reg x == s.reg y))

/-- 9xy0 `SNE Vx, Vy` (R126). -/
def execSneReg (x y : RegIdx) (s : State) : Host.Outcome State Fault Refusal := .next (s.skipIf (s.reg x != s.reg y))

/-- Bnnn `JP V0, nnn`: not reduced modulo 4096 (R127, decision D29). -/
def execJpV0 (nnn : BitVec 12) (s : State) : Host.Outcome State Fault Refusal :=
  .next (s.setPc (wideByte (s.reg 0) + addrImm nnn))

end Sys2Proof.Machine
end

