-- ==== Sys2Proof/Machine/Display.lean ====
section
/-! DEFINITION. The display: 00E0, Dxyn (spec/44_display.md). -/

namespace Sys2Proof.Machine

/-- `FB[xx, yy]` (10_state.md R29). -/
def Framebuffer.pixel (f : Framebuffer) (xx : Fin 64) (yy : Fin 32) : Bool := f[yy.val][xx.val]

/-- `FB[xx, yy] <- p`. -/
def Framebuffer.setPixel (f : Framebuffer) (xx : Fin 64) (yy : Fin 32) (p : Bool) : Framebuffer :=
  f.set yy.val (f[yy.val].set xx.val p xx.isLt) yy.isLt

/-- All pixels off (44_display.md R180). -/
def Framebuffer.blank : Framebuffer := Vector.replicate 32 (Vector.replicate 64 false)

/-- A column wrapped modulo 64 (44_display.md R181). -/
def wrapCol (n : Nat) : Fin 64 := ⟨n % 64, Nat.mod_lt n (by decide)⟩

/-- A row wrapped modulo 32 (44_display.md R181). -/
def wrapRow (n : Nat) : Fin 32 := ⟨n % 32, Nat.mod_lt n (by decide)⟩

/-- One sprite bit, column `c` of a row, at `((a + c) mod 64, b mod 32)`: XOR into the pixel, and a collision if a 1 lands on
a lit pixel (44_display.md R181; column 0 is the most significant bit). `b` is the row's own unreduced coordinate. -/
def drawBit (a b : Nat) (row : Byte) (acc : Framebuffer × Bool) (c : Nat) : Framebuffer × Bool :=
  let bit := row.getLsbD (7 - c)
  let old := Framebuffer.pixel acc.1 (wrapCol (a + c)) (wrapRow b)
  (Framebuffer.setPixel acc.1 (wrapCol (a + c)) (wrapRow b) (old ^^ bit), acc.2 || (bit && old))

/-- The eight bits of a row, leftmost first. -/
def drawRow (a b : Nat) (row : Byte) (acc : Framebuffer × Bool) : Framebuffer × Bool :=
  (List.range 8).foldl (drawBit a b row) acc

/-- The rows of a sprite, top first, the flag over the whole sprite (44_display.md R181). -/
def drawSprite (a b : Nat) : List Byte → Framebuffer × Bool → Framebuffer × Bool
  | [], acc => acc
  | row :: rows, acc => drawSprite a (b + 1) rows (drawRow a b row acc)

/-- The sprite of `n` rows at I drawn at (Vx, Vy), both read before VF is written; VF <- collision. -/
def State.drawAt (s : State) (x y : RegIdx) (n : Nat) : State :=
  let drawn := drawSprite (s.reg x).toNat (s.reg y).toNat (s.mem.readBytes s.i.toNat n) (s.fb, false)
  (s.setFb drawn.1).setReg vf (flagByte drawn.2)

/-- 00E0 `CLS` (44_display.md R180). -/
def execCls (s : State) : Host.Outcome State Fault Refusal := .next (s.setFb Framebuffer.blank)

/-- Dxyn `DRW Vx, Vy, n` (R181): with n = 0 no check is made and VF <- 0. -/
def execDrw (x y : RegIdx) (n : Fin 16) (s : State) : Host.Outcome State Fault Refusal :=
  .next (s.guardAccess n.val (encodeWord (.drw x y n)) (s.drawAt x y n.val))

end Sys2Proof.Machine
end

