-- ==== Sys2Proof/Machine/Index.lean ====
section
/-! DEFINITION. The index register and memory: Annn, Fx1E, Fx29, Fx33, Fx55, Fx65 (spec/43_index_memory.md). No load or
store changes I (R166, decision D13). -/

namespace Sys2Proof.Machine

/-- Annn `LD I, nnn` (43_index_memory.md R160). -/
def execLdI (nnn : BitVec 12) (s : State) : Host.Outcome State Fault Refusal := .next (s.setI (addrImm nnn))

/-- Fx1E `ADD I, Vx`: modulo 65536, no flag (R161). -/
def execAddI (x : RegIdx) (s : State) : Host.Outcome State Fault Refusal := .next (s.setI (s.i + wideByte (s.reg x)))

/-- Fx29 `LD F, Vx`: the glyph address, Vx not masked (R162, decision D16). -/
def execLdF (x : RegIdx) (s : State) : Host.Outcome State Fault Refusal :=
  .next (s.setI (BitVec.ofNat 16 (Config.fontBase + 5 * (s.reg x).toNat)))

/-- Fx33 `LD B, Vx`: three digits at I (R163). -/
def execLdB (x : RegIdx) (s : State) : Host.Outcome State Fault Refusal :=
  .next (s.guardAccess 3 (encodeWord (.ldB x)) (s.storeBytes s.i.toNat (decimalDigits (s.reg x))))

/-- Fx55 `LD [I], Vx`: V0..Vx at I (R164). -/
def execLdMemVx (x : RegIdx) (s : State) : Host.Outcome State Fault Refusal :=
  .next (s.guardAccess (x.val + 1) (encodeWord (.ldMemVx x)) (s.storeBytes s.i.toNat (s.regsUpTo x)))

/-- Fx65 `LD Vx, [I]`: V0..Vx from I (R165). -/
def execLdVxMem (x : RegIdx) (s : State) : Host.Outcome State Fault Refusal :=
  .next (s.guardAccess (x.val + 1) (encodeWord (.ldVxMem x)) (s.loadRegs s.i.toNat (x.val + 1)))

end Sys2Proof.Machine
end

