-- ==== Sys2Proof/Machine/Keypad.lean ====
section
/-! DEFINITION. Keypad and timers: Ex9E, ExA1, Fx07, Fx0A, Fx15, Fx18 (spec/45_keypad_timers.md). KEY is this step's sample,
and the timers have already ticked. -/

namespace Sys2Proof.Machine

/-- Ex9E `SKP Vx` (45_keypad_timers.md R190, R196). -/
def execSkp (x : RegIdx) (s : State) : Host.Outcome State Fault Refusal :=
  .next (s.skipIf (s.keyDown (keyIndex (s.reg x))))

/-- ExA1 `SKNP Vx` (R191, R196). -/
def execSknp (x : RegIdx) (s : State) : Host.Outcome State Fault Refusal :=
  .next (s.skipIf (!s.keyDown (keyIndex (s.reg x))))

/-- Fx07 `LD Vx, DT` (R192). -/
def execLdVxDt (x : RegIdx) (s : State) : Host.Outcome State Fault Refusal := .next (s.setReg x s.dt)

/-- One poll of Fx0A: with no key down PC goes back by 2, so that the same instruction is fetched again; else Vx is the
least pressed key (R193). -/
def State.pollKey (s : State) (x : RegIdx) : State :=
  match firstKey s.port.key with
  | none => s.setPc (s.pc - 2)
  | some k => s.setReg x (BitVec.ofNat 8 k)

/-- Fx0A `LD Vx, K` (R193). -/
def execLdVxK (x : RegIdx) (s : State) : Host.Outcome State Fault Refusal := .next (s.pollKey x)

/-- Fx15 `LD DT, Vx` (R194). -/
def execLdDtVx (x : RegIdx) (s : State) : Host.Outcome State Fault Refusal := .next (s.setDt (s.reg x))

/-- Fx18 `LD ST, Vx` (R195). -/
def execLdStVx (x : RegIdx) (s : State) : Host.Outcome State Fault Refusal := .next (s.setSt (s.reg x))

end Sys2Proof.Machine
end

