-- ==== Sys2Proof/Machine/Step.lean ====
section
/-! DEFINITION. One `step`: the five phases of spec/40_step_cycle.md R100, over the operations of Machine/Ops.lean. -/

namespace Sys2Proof.Machine

/-- `step(KEY, RND)` (40_step_cycle.md R100), its inputs taken from the port. Phase 0: halted, nothing changes (R101).
Phase 1: fetch or FETCH_OUT_OF_RANGE (R102). Phases 2, 3: advance, tick (R103, R104). Phases 4, 5: decode, then report or
execute (R105, R106). -/
def step (s : State) : Host.Outcome State Fault Refusal :=
  if s.halt then .next s.begin
  else if !s.fetchable then .next (s.begin.raise .fetchOutOfRange 0x0000)
  else
    match decodeWord s.fetchWord with
    | none => .next (s.begin.enter.reportUnknown s.fetchWord)
    | some i => exec i s.begin.enter

/-- The state with one opcode, numbered as spec/opcode_table.json numbers its bits, stored where the next fetch reads it. -/
def State.withFetchWord (s : State) (nbits w : Nat) : State := s.placeWord (tableWord nbits w)

end Sys2Proof.Machine
end

