-- ==== Sys2Proof/Machine/Commands.lean ====
section
/-! DEFINITION. The host interface (spec/50_host_interface.md R200): the three commands, atomic, in any order and with any
arguments (R210, R212), and the read accessors that are not a field of State. -/

namespace Sys2Proof.Machine

/-- What `load_program` returns (50_host_interface.md R209). -/
inductive LoadResult where
  /-- LOAD_OK -/
  | ok
  /-- LOAD_OVERFLOW: more than 3584 bytes, nothing written (60_exceptions.md R239). -/
  | overflow
  deriving DecidableEq, Repr

/-- `load_program(bytes)` (50_host_interface.md R202): copied verbatim to 0x200, or rejected before any write. -/
def State.loadProgram (s : State) (image : List Byte) : LoadResult × State :=
  if imageWellFormed image then (.ok, s.storeBytes Config.progBase image) else (.overflow, s)

/-- `reset` (50_host_interface.md R201, 70_reset_and_hazards.md R260): every piece of engine state to its reset value, whatever
it was; the keypad and the random source, which are not engine state, are untouched (log 12). -/
def State.resetCommand (s : State) : State := { State.reset with port := s.port }

/-- A command of the host (50_host_interface.md R200). -/
inductive Command where
  | reset
  | loadProgram (image : List Byte)
  | step (key : BitVec 16) (rnd : Byte)
  deriving DecidableEq, Repr

/-- What a command returns to the host. `step` returns the event that the port then holds (50_host_interface.md R209). -/
inductive Reply where
  | done
  | load (r : LoadResult)
  | event (e : Event)
  deriving DecidableEq, Repr

/-- One command, to completion (50_host_interface.md R200, R210). -/
def State.obey (s : State) : Command → Host.Outcome (Reply × State) Fault Refusal
  | .reset => .next (.done, s.resetCommand)
  | .loadProgram image => .next (.load (s.loadProgram image).1, (s.loadProgram image).2)
  | .step key rnd =>
    match step (s.present key rnd) with
    | .next t => .next (.event t.port.event, t)
    | .fault r => .fault r
    | .refused r => .refused r

/-- `sound_active`: ST != 0, a pure function of state (50_host_interface.md R208). -/
def State.soundActive (s : State) : Bool := s.st != 0

/-- The framebuffer export: row-major, pixel (xx, yy) is element `yy * 64 + xx` (50_host_interface.md R207, 10_state.md R29). -/
def State.pixels (s : State) : List Bool := (s.fb.toList.map (·.toList)).flatten

/-- FAULT_CAUSE as its three bits (60_exceptions.md R230). -/
def FaultCause.code : FaultCause → BitVec 3
  | .none => 0
  | .fetchOutOfRange => 1
  | .stackOverflow => 2
  | .stackUnderflow => 3
  | .memOutOfRange => 4

end Sys2Proof.Machine
end

