-- ==== Sys2Proof/Safety.lean ====
section
/-! DEFINITION. The terms claims use: what two states share, who writes what, when an instruction faults, and the invariants
of the engine. -/

namespace Sys2Proof.Machine

/-! What two states share -/

/-- Every register but those of `xs` holds what it held. -/
def SameRegsBut (xs : List RegIdx) (s t : State) : Prop := ∀ r, r ∉ xs → t.reg r = s.reg r

/-- DT and ST are as they were. -/
def SameTimers (s t : State) : Prop := t.dt = s.dt ∧ t.st = s.st

/-- SP and every slot, the dead ones included, are as they were. -/
def SameStack (s t : State) : Prop := t.sp = s.sp ∧ t.stack = s.stack

/-- Every pixel is as it was. -/
def SamePicture (s t : State) : Prop := t.fb = s.fb

/-- Every byte of memory reads as it did. -/
def SameMemory (s t : State) : Prop := ∀ a, t.readByte a = s.readByte a

/-- Every byte outside `base .. base + len - 1` reads as it did. -/
def SameMemoryOutside (base len : Nat) (s t : State) : Prop := ∀ a, a < base ∨ base + len ≤ a → t.readByte a = s.readByte a

/-- HALT, FAULT_CAUSE and FAULT_OPCODE are as they were. -/
def SameLatch (s t : State) : Prop := t.halt = s.halt ∧ t.faultCause = s.faultCause ∧ t.faultOpcode = s.faultOpcode

/-- Nothing is raised or reported, and the step's inputs are as they were. -/
def Quiet (s t : State) : Prop := SameLatch s t ∧ t.port = s.port

/-- Everything but the registers of `xs` is as it was, PC included: a register instruction. -/
def OnlyRegs (xs : List RegIdx) (s t : State) : Prop :=
  SameRegsBut xs s t ∧ t.i = s.i ∧ t.pc = s.pc ∧ SameTimers s t ∧ SameStack s t ∧ SamePicture s t ∧ SameMemory s t ∧
    Quiet s t

/-- Everything but PC is as it was: a jump or a skip. -/
def OnlyPc (s t : State) : Prop :=
  SameRegsBut [] s t ∧ t.i = s.i ∧ SameTimers s t ∧ SameStack s t ∧ SamePicture s t ∧ SameMemory s t ∧ Quiet s t

/-- Everything but I is as it was. -/
def OnlyI (s t : State) : Prop :=
  SameRegsBut [] s t ∧ t.pc = s.pc ∧ SameTimers s t ∧ SameStack s t ∧ SamePicture s t ∧ SameMemory s t ∧ Quiet s t

/-- Everything but memory is as it was: a store. -/
def OnlyMemory (s t : State) : Prop :=
  SameRegsBut [] s t ∧ t.i = s.i ∧ t.pc = s.pc ∧ SameTimers s t ∧ SameStack s t ∧ SamePicture s t ∧ Quiet s t

/-- Everything but HALT, FAULT_CAUSE, FAULT_OPCODE and the event is as it was. -/
def OnlyLatch (s t : State) : Prop :=
  SameRegsBut [] s t ∧ t.i = s.i ∧ t.pc = s.pc ∧ SameTimers s t ∧ SameStack s t ∧ SamePicture s t ∧ SameMemory s t

/-- The latch and the event say that `cause` was raised by opcode `op` (spec/60_exceptions.md R236). -/
def Latched (cause : FaultCause) (op : Word) (s t : State) : Prop :=
  t.halt = true ∧ t.faultCause = cause ∧ t.faultOpcode = op ∧ t.port = { s.port with event := .fault cause op s.pc }

/-- The engine without the model's port. -/
def State.engine (s : State) : State := { s with port := Port.reset }

/-- The same step inputs but another RND. -/
def State.withRnd (s : State) (r : Byte) : State := { s with port := { s.port with rnd := r } }

/-- The same step inputs but another KEY. -/
def State.withKey (s : State) (k : BitVec 16) : State := { s with port := { s.port with key := k } }

/-- Apply `f` to the next state of an outcome. -/
def mapNext (f : State → State) : Host.Outcome State Fault Refusal → Host.Outcome State Fault Refusal
  | .next t => .next (f t)
  | .fault r => .fault r
  | .refused r => .refused r

/-! Who writes what -/

/-- The V registers an instruction writes (spec/10_state.md R20, R21). -/
def dests : Instr → List RegIdx
  | .ldImm x _ | .addImm x _ | .ldReg x _ | .orReg x _ | .andReg x _ | .xorReg x _ | .rnd x _ | .ldVxDt x | .ldVxK x => [x]
  | .addReg x _ | .sub x _ | .shr x _ | .subn x _ | .shl x _ => [x, vf]
  | .drw _ _ _ => [vf]
  | .ldVxMem x => (List.finRange 16).filter (· ≤ x)
  | .cls | .ret | .jp _ | .call _ | .seImm _ _ | .sneImm _ _ | .seReg _ _ | .sneReg _ _ | .ldI _ | .jpV0 _ | .skp _
  | .sknp _ | .ldDtVx _ | .ldStVx _ | .addI _ | .ldF _ | .ldB _ | .ldMemVx _ => []

/-- How many bytes an instruction stores at I (spec/20_memory.md R57). -/
def storeLen : Instr → Nat
  | .ldB _ => 3
  | .ldMemVx x => x.val + 1
  | .cls | .ret | .jp _ | .call _ | .seImm _ _ | .sneImm _ _ | .seReg _ _ | .ldImm _ _ | .addImm _ _ | .ldReg _ _
  | .orReg _ _ | .andReg _ _ | .xorReg _ _ | .addReg _ _ | .sub _ _ | .shr _ _ | .subn _ _ | .shl _ _ | .sneReg _ _
  | .ldI _ | .jpV0 _ | .rnd _ _ | .drw _ _ _ | .skp _ | .sknp _ | .ldVxDt _ | .ldVxK _ | .ldDtVx _ | .ldStVx _
  | .addI _ | .ldF _ | .ldVxMem _ => 0

/-- How many bytes an instruction reads or writes at I (spec/20_memory.md R57). -/
def accessLen : Instr → Nat
  | .drw _ _ n => n.val
  | .ldB _ => 3
  | .ldMemVx x | .ldVxMem x => x.val + 1
  | .cls | .ret | .jp _ | .call _ | .seImm _ _ | .sneImm _ _ | .seReg _ _ | .ldImm _ _ | .addImm _ _ | .ldReg _ _
  | .orReg _ _ | .andReg _ _ | .xorReg _ _ | .addReg _ _ | .sub _ _ | .shr _ _ | .subn _ _ | .shl _ _ | .sneReg _ _
  | .ldI _ | .jpV0 _ | .rnd _ _ | .skp _ | .sknp _ | .ldVxDt _ | .ldVxK _ | .ldDtVx _ | .ldStVx _ | .addI _
  | .ldF _ => 0

/-- Which fatal fault an instruction raises, by the table of spec/60_exceptions.md R230. -/
def faultIn (s : State) : Instr → Option FaultCause
  | .ret => if s.sp.val = 0 then some .stackUnderflow else none
  | .call _ => if s.sp.val = 16 then some .stackOverflow else none
  | other =>
    if 0 < accessLen other ∧ 4095 < s.i.toNat + accessLen other - 1 then some .memOutOfRange else none

/-- The instructions that write I (spec/10_state.md R24). -/
def writesIndex : Instr → Bool
  | .ldI _ | .addI _ | .ldF _ => true
  | _ => false

/-- The instructions that write the framebuffer (spec/10_state.md R29). -/
def writesPicture : Instr → Bool
  | .cls | .drw _ _ _ => true
  | _ => false

/-- The instructions that touch the call stack (spec/10_state.md R27). -/
def touchesStack : Instr → Bool
  | .call _ | .ret => true
  | _ => false

/-- The instructions that move PC beyond the advance of their step (spec/10_state.md R23). -/
def movesPc : Instr → Bool
  | .ret | .jp _ | .call _ | .jpV0 _ | .seImm _ _ | .sneImm _ _ | .seReg _ _ | .sneReg _ _ | .skp _ | .sknp _
  | .ldVxK _ => true
  | _ => false

/-- The instructions that look at the keypad sample (spec/50_host_interface.md R205). -/
def readsKey : Instr → Bool
  | .skp _ | .sknp _ | .ldVxK _ => true
  | _ => false

/-- PC at the end of the step, for the instruction fetched from address `a`, by the table of spec/10_state.md R23; `key` is the
step's keypad sample. -/
def pcAfter (s : State) (key : BitVec 16) (a : Nat) (ins : Instr) : Nat :=
  if (faultIn s ins).isSome then a + 2
  else
    match ins with
    | .seImm x kk => if s.reg x = kk then a + 4 else a + 2
    | .sneImm x kk => if s.reg x = kk then a + 2 else a + 4
    | .seReg x y => if s.reg x = s.reg y then a + 4 else a + 2
    | .sneReg x y => if s.reg x = s.reg y then a + 2 else a + 4
    | .skp x => if key.getLsbD ((s.reg x).toNat % 16) then a + 4 else a + 2
    | .sknp x => if key.getLsbD ((s.reg x).toNat % 16) then a + 2 else a + 4
    | .jp nnn | .call nnn => nnn.toNat
    | .jpV0 nnn => (s.reg 0).toNat + nnn.toNat
    | .ret => if h : 0 < s.sp.val then (s.stack[s.sp.val - 1]'(by omega)).toNat else a + 2
    | .ldVxK _ => if key = 0 then a else a + 2
    | _ => a + 2

/-! What a sprite covers (spec/44_display.md R181), the other way round: from the pixel to the sprite bit -/

/-- The column a pixel has in a sprite drawn at column `a`: 0..7 where the sprite covers it. -/
def spriteCol (a : Nat) (x : Fin 64) : Nat := (x.val + 64 - a % 64) % 64

/-- The row a pixel has in a sprite drawn at row `b`. -/
def spriteRow (b : Nat) (y : Fin 32) : Nat := (y.val + 32 - b % 32) % 32

/-- The sprite bit that lands on a pixel when the rows are drawn at `(a, b)`, 0 where the sprite does not reach: each pixel's
coordinate is wrapped on its own (spec/44_display.md R181). -/
def spriteAt (a b : Nat) (rows : List Byte) (x : Fin 64) (y : Fin 32) : Bool :=
  decide (spriteCol a x < 8) && ((rows[spriteRow b y]?).getD 0).getLsbD (7 - spriteCol a x)

/-! Invariants -/

/-- Memory is in its canonical form. -/
def MemoryCanonical (s : State) : Prop := s.mem.wf

/-- PC never exceeds 0x10FE, and no return address 0x1000 (spec/10_state.md R22, 60_exceptions.md R231). -/
def PcBounded (s : State) : Prop := s.pc.toNat ≤ 0x10FE ∧ ∀ k (h : k < 16), (s.stack[k]'h).toNat ≤ 0x1000

/-- The latch tells a true story: HALT is set exactly when a cause is recorded, FAULT_OPCODE is the opcode that raised it,
and the condition it raised it for still holds, since a halted engine changes nothing (spec/10_state.md R31,
60_exceptions.md R230 to R237). -/
def LatchTruthful (s : State) : Prop :=
  match s.faultCause with
  | .none => s.halt = false ∧ s.faultOpcode = 0x0000
  | .fetchOutOfRange => s.halt = true ∧ s.faultOpcode = 0x0000 ∧ 4095 < s.pc.toNat + 1
  | .stackOverflow | .stackUnderflow | .memOutOfRange =>
    s.halt = true ∧ ∃ ins, decodeWord s.faultOpcode = some ins ∧ faultIn s ins = some s.faultCause

/-- The invariants of the engine. -/
def EngineInv (s : State) : Prop := MemoryCanonical s ∧ PcBounded s ∧ LatchTruthful s

end Sys2Proof.Machine
end

