-- ==== Sys2Proof/Certificates/Slice0/Obligations.lean ====
section
/-! DEFINITION. The statements for the provers. A rule of spec/ whose clause carries a `[decision ...]`, `[derived ...]` or
`[from general knowledge ...]` tag is the spec's own choice or inference; a statement that rests on one says so here, names it,
and has basis 'derived' in OBLIGATIONS.json. -/

open Sys2Proof Sys2Proof.Machine

/-! ## Register load, arithmetic, logic, shift, random (spec/42_alu.md) -/

/-- R140: 6xkk loads its immediate and changes nothing else. -/
def Obligations.LdImmLoadsImmediate : Prop :=
  ∀ (s : State) (x : RegIdx) (kk : Byte), ∃ t, exec (.ldImm x kk) s = .next t ∧ t.reg x = kk ∧ OnlyRegs [x] s t

/-- R141: 7xkk adds modulo 256; VF is not written unless it is the destination. -/
def Obligations.AddImmWrapsWithoutFlag : Prop :=
  ∀ (s : State) (x : RegIdx) (kk : Byte), ∃ t, exec (.addImm x kk) s = .next t ∧
    (t.reg x).toNat = ((s.reg x).toNat + kk.toNat) % 256 ∧ OnlyRegs [x] s t

/-- R142: 8xy0 copies Vy into Vx. -/
def Obligations.LdRegCopiesRegister : Prop :=
  ∀ (s : State) (x y : RegIdx), ∃ t, exec (.ldReg x y) s = .next t ∧ t.reg x = s.reg y ∧ OnlyRegs [x] s t

/-- 8xy1, 8xy2, 8xy3 work bit by bit on the sampled operands and leave VF alone unless it is Vx. That VF is left alone is the
spec's decision D12 (42_alu.md, the paragraph of 8xy1). -/
def Obligations.LogicIsBitwiseAndKeepsVf : Prop :=
  ∀ (s : State) (x y : RegIdx),
    (∃ t, exec (.orReg x y) s = .next t ∧
      (∀ k < 8, (t.reg x).getLsbD k = ((s.reg x).getLsbD k || (s.reg y).getLsbD k)) ∧ OnlyRegs [x] s t) ∧
    (∃ t, exec (.andReg x y) s = .next t ∧
      (∀ k < 8, (t.reg x).getLsbD k = ((s.reg x).getLsbD k && (s.reg y).getLsbD k)) ∧ OnlyRegs [x] s t) ∧
    (∃ t, exec (.xorReg x y) s = .next t ∧
      (∀ k < 8, (t.reg x).getLsbD k = ((s.reg x).getLsbD k != (s.reg y).getLsbD k)) ∧ OnlyRegs [x] s t)

/-- R146: 8xy4 leaves the carry in VF for every x, and the sum modulo 256 in Vx for every x but F. -/
def Obligations.AddRegSumAndCarry : Prop :=
  ∀ (s : State) (x y : RegIdx), ∃ t, exec (.addReg x y) s = .next t ∧
    (t.reg vf).toNat = (if (s.reg x).toNat + (s.reg y).toNat > 255 then 1 else 0) ∧
    (x ≠ vf → (t.reg x).toNat = ((s.reg x).toNat + (s.reg y).toNat) % 256) ∧ OnlyRegs [x, vf] s t

/-- R147, R149: 8xy5 and 8xy7 put the difference modulo 256 in Vx for every x, and the no-borrow flag in VF for every x but F,
where the difference overwrites it. -/
def Obligations.SubtractionFlagThenResult : Prop :=
  ∀ (s : State) (x y : RegIdx),
    (∃ t, exec (.sub x y) s = .next t ∧ (t.reg x).toNat = (256 + (s.reg x).toNat - (s.reg y).toNat) % 256 ∧
      (x ≠ vf → (t.reg vf).toNat = if (s.reg x).toNat ≥ (s.reg y).toNat then 1 else 0) ∧ OnlyRegs [x, vf] s t) ∧
    (∃ t, exec (.subn x y) s = .next t ∧ (t.reg x).toNat = (256 + (s.reg y).toNat - (s.reg x).toNat) % 256 ∧
      (x ≠ vf → (t.reg vf).toNat = if (s.reg y).toNat ≥ (s.reg x).toNat then 1 else 0) ∧ OnlyRegs [x, vf] s t)

/-- R148, R150: 8xy6 and 8xyE shift Vx by one and, for every x but F, leave the bit shifted out in VF; for x = F the result
overwrites it. The y field changes nothing, since the value does not depend on it. -/
def Obligations.ShiftsCaptureLostBit : Prop :=
  ∀ (s : State) (x y : RegIdx),
    (∃ t, exec (.shr x y) s = .next t ∧ (t.reg x).toNat = (s.reg x).toNat / 2 ∧
      (x ≠ vf → (t.reg vf).toNat = (s.reg x).toNat % 2) ∧ OnlyRegs [x, vf] s t) ∧
    (∃ t, exec (.shl x y) s = .next t ∧ (t.reg x).toNat = (s.reg x).toNat * 2 % 256 ∧
      (x ≠ vf → (t.reg vf).toNat = (s.reg x).toNat / 128) ∧ OnlyRegs [x, vf] s t)

/-- The table of 42_alu.md for VF as an operand (the spec's decision D10: operands sampled first, writes in the row's order).
`f` is VF before. With y = F the old VF is the operand; with x = F the carry stays in 8xy4 and the result in the others. -/
def Obligations.VfAsOperandTable : Prop :=
  ∀ (s : State) (x y : RegIdx), x ≠ vf → y ≠ vf →
    (∃ t, exec (.addReg x vf) s = .next t ∧ (t.reg x).toNat = ((s.reg x).toNat + (s.reg vf).toNat) % 256 ∧
      (t.reg vf).toNat = if (s.reg x).toNat + (s.reg vf).toNat > 255 then 1 else 0) ∧
    (∃ t, exec (.sub x vf) s = .next t ∧ (t.reg x).toNat = (256 + (s.reg x).toNat - (s.reg vf).toNat) % 256 ∧
      (t.reg vf).toNat = if (s.reg x).toNat ≥ (s.reg vf).toNat then 1 else 0) ∧
    (∃ t, exec (.subn x vf) s = .next t ∧ (t.reg x).toNat = (256 + (s.reg vf).toNat - (s.reg x).toNat) % 256 ∧
      (t.reg vf).toNat = if (s.reg vf).toNat ≥ (s.reg x).toNat then 1 else 0) ∧
    (∃ t, exec (.addReg vf y) s = .next t ∧
      (t.reg vf).toNat = if (s.reg vf).toNat + (s.reg y).toNat > 255 then 1 else 0) ∧
    (∃ t, exec (.sub vf y) s = .next t ∧ (t.reg vf).toNat = (256 + (s.reg vf).toNat - (s.reg y).toNat) % 256) ∧
    (∃ t, exec (.subn vf y) s = .next t ∧ (t.reg vf).toNat = (256 + (s.reg y).toNat - (s.reg vf).toNat) % 256) ∧
    (∃ t, exec (.addReg vf vf) s = .next t ∧ (t.reg vf).toNat = if 2 * (s.reg vf).toNat > 255 then 1 else 0) ∧
    (∃ t, exec (.sub vf vf) s = .next t ∧ (t.reg vf).toNat = 0) ∧
    (∃ t, exec (.subn vf vf) s = .next t ∧ (t.reg vf).toNat = 0) ∧
    (∃ t, exec (.shr vf y) s = .next t ∧ (t.reg vf).toNat = (s.reg vf).toNat / 2) ∧
    (∃ t, exec (.shl vf y) s = .next t ∧ (t.reg vf).toNat = 2 * (s.reg vf).toNat % 256) ∧
    (∃ t, exec (.shr vf vf) s = .next t ∧ (t.reg vf).toNat = (s.reg vf).toNat / 2) ∧
    (∃ t, exec (.shl vf vf) s = .next t ∧ (t.reg vf).toNat = 2 * (s.reg vf).toNat % 256)

/-- R152: Cxkk loads this step's random byte AND kk; every other instruction ignores the random byte. -/
def Obligations.RndAloneConsumesRandomByte : Prop :=
  (∀ (s : State) (x : RegIdx) (kk : Byte), ∃ t, exec (.rnd x kk) s = .next t ∧
    (∀ k < 8, (t.reg x).getLsbD k = (s.port.rnd.getLsbD k && kk.getLsbD k)) ∧ OnlyRegs [x] s t) ∧
  (∀ (i : Instr) (s : State) (r : Byte), (∀ x kk, i ≠ .rnd x kk) →
    exec i (s.withRnd r) = mapNext (·.withRnd r) (exec i s))

/-! ## Control transfer (spec/41_control_flow.md). PC is the advanced PC. -/

/-- R123, R124: 3xkk skips on equality, 4xkk on inequality, of Vx and kk; nothing but PC changes. -/
def Obligations.SkipsCompareImmediate : Prop :=
  ∀ (s : State) (x : RegIdx) (kk : Byte),
    (∃ t, exec (.seImm x kk) s = .next t ∧
      t.pc.toNat = (if (s.reg x).toNat = kk.toNat then (s.pc.toNat + 2) % 65536 else s.pc.toNat) ∧ OnlyPc s t) ∧
    (∃ t, exec (.sneImm x kk) s = .next t ∧
      t.pc.toNat = (if (s.reg x).toNat = kk.toNat then s.pc.toNat else (s.pc.toNat + 2) % 65536) ∧ OnlyPc s t)

/-- R125, R126: 5xy0 skips on equality, 9xy0 on inequality, of Vx and Vy; nothing but PC changes. -/
def Obligations.SkipsCompareRegisters : Prop :=
  ∀ (s : State) (x y : RegIdx),
    (∃ t, exec (.seReg x y) s = .next t ∧
      t.pc.toNat = (if (s.reg x).toNat = (s.reg y).toNat then (s.pc.toNat + 2) % 65536 else s.pc.toNat) ∧ OnlyPc s t) ∧
    (∃ t, exec (.sneReg x y) s = .next t ∧
      t.pc.toNat = (if (s.reg x).toNat = (s.reg y).toNat then s.pc.toNat else (s.pc.toNat + 2) % 65536) ∧ OnlyPc s t)

/-- R121: 1nnn sets PC to nnn, zero-extended, and changes nothing else. -/
def Obligations.JpSetsPc : Prop :=
  ∀ (s : State) (nnn : BitVec 12), ∃ t, exec (.jp nnn) s = .next t ∧ t.pc.toNat = nnn.toNat ∧ OnlyPc s t

/-- Bnnn sets PC to V0 + nnn, not reduced modulo 4096 (the spec's decision D29; 41_control_flow.md, the paragraph of Bnnn). -/
def Obligations.JpV0AddsV0 : Prop :=
  ∀ (s : State) (nnn : BitVec 12), ∃ t, exec (.jpV0 nnn) s = .next t ∧ t.pc.toNat = (s.reg 0).toNat + nnn.toNat ∧
    OnlyPc s t

/-- R122: with fewer than 16 return addresses 2nnn pushes the advanced PC into slot SP and jumps; with 16 it raises
STACK_OVERFLOW, and STACK, SP and PC stay. -/
def Obligations.CallPushesOrOverflows : Prop :=
  ∀ (s : State) (nnn : BitVec 12),
    (s.sp.val < 16 → ∃ t, exec (.call nnn) s = .next t ∧ t.sp.val = s.sp.val + 1 ∧ t.pc.toNat = nnn.toNat ∧
      (∀ k (h : k < 16), t.stack[k]'h = if k = s.sp.val then s.pc else s.stack[k]'h) ∧
      SameRegsBut [] s t ∧ t.i = s.i ∧ SameTimers s t ∧ SamePicture s t ∧ SameMemory s t ∧ Quiet s t) ∧
    (s.sp.val = 16 → ∃ t, exec (.call nnn) s = .next t ∧ OnlyLatch s t ∧
      Latched .stackOverflow (encodeWord (.call nnn)) s t)

/-- R120: with a return address on the stack 00EE pops it into PC and leaves the slot as it was; with none it raises
STACK_UNDERFLOW, and SP, STACK and PC stay; and after a 2nnn that found room it gives back the PC the call ran with. -/
def Obligations.RetPopsOrUnderflows : Prop :=
  ∀ (s : State),
    (∀ h : 0 < s.sp.val, ∃ t, exec .ret s = .next t ∧ t.sp.val = s.sp.val - 1 ∧
      t.pc = s.stack[s.sp.val - 1]'(by omega) ∧ t.stack = s.stack ∧
      SameRegsBut [] s t ∧ t.i = s.i ∧ SameTimers s t ∧ SamePicture s t ∧ SameMemory s t ∧ Quiet s t) ∧
    (s.sp.val = 0 → ∃ t, exec .ret s = .next t ∧ OnlyLatch s t ∧ Latched .stackUnderflow (encodeWord .ret) s t) ∧
    (s.sp.val < 16 → ∀ nnn : BitVec 12, ∃ t u, exec (.call nnn) s = .next t ∧ exec .ret t = .next u ∧ u.pc = s.pc ∧
      u.sp = s.sp)

/-- Two steps: a 2nnn fetched at PC, then a 00EE at nnn, come back to the address after the call, with SP as before
(95_test_vectors.md E9). -/
def Obligations.CallThenRetComesBack : Prop :=
  ∀ (s : State) (nnn : BitVec 12), s.halt = false → s.fetchable = true → decodeWord s.fetchWord = some (.call nnn) →
    s.sp.val < 16 → nnn.toNat ≤ 0xFFE → s.readByte nnn.toNat = 0x00 → s.readByte (nnn.toNat + 1) = 0xEE →
    ∃ t u, step s = .next t ∧ step t = .next u ∧ u.pc.toNat = s.pc.toNat + 2 ∧ u.sp = s.sp ∧ SameRegsBut [] s u ∧
      u.halt = false

/-! ## Index register and memory (spec/43_index_memory.md) -/

/-- R160: Annn sets I to nnn, zero-extended. -/
def Obligations.LdISetsIndex : Prop :=
  ∀ (s : State) (nnn : BitVec 12), ∃ t, exec (.ldI nnn) s = .next t ∧ t.i.toNat = nnn.toNat ∧ OnlyI s t

/-- R161: Fx1E adds Vx to I modulo 65536; VF is not written. -/
def Obligations.AddIWrapsAtSixteenBits : Prop :=
  ∀ (s : State) (x : RegIdx), ∃ t, exec (.addI x) s = .next t ∧ t.i.toNat = (s.i.toNat + (s.reg x).toNat) % 65536 ∧
    OnlyI s t

/-- Fx29 sets I to 0x050 + 5 * Vx for all 256 values of Vx (no mask above 15: the spec's decision D16). -/
def Obligations.LdFGivesGlyphAddress : Prop :=
  ∀ (s : State) (x : RegIdx), ∃ t, exec (.ldF x) s = .next t ∧ t.i.toNat = 0x050 + 5 * (s.reg x).toNat ∧ OnlyI s t

/-- R163: Fx33 stores hundreds, tens and ones at I, I+1, I+2 when the third byte lies in memory, and else raises
MEM_OUT_OF_RANGE with nothing written. -/
def Obligations.LdBStoresDecimalDigits : Prop :=
  ∀ (s : State) (x : RegIdx),
    (s.i.toNat + 2 ≤ 4095 → ∃ t, exec (.ldB x) s = .next t ∧
      (t.readByte s.i.toNat).toNat = (s.reg x).toNat / 100 ∧
      (t.readByte (s.i.toNat + 1)).toNat = (s.reg x).toNat / 10 % 10 ∧
      (t.readByte (s.i.toNat + 2)).toNat = (s.reg x).toNat % 10 ∧
      SameMemoryOutside s.i.toNat 3 s t ∧ OnlyMemory s t) ∧
    (4095 < s.i.toNat + 2 → ∃ t, exec (.ldB x) s = .next t ∧ OnlyLatch s t ∧
      Latched .memOutOfRange (encodeWord (.ldB x)) s t)

/-- R164: Fx55 stores V0..Vx at I..I+x when the last byte lies in memory, and else raises MEM_OUT_OF_RANGE with nothing
written. -/
def Obligations.LdMemVxStoresRegisters : Prop :=
  ∀ (s : State) (x : RegIdx),
    (s.i.toNat + x.val ≤ 4095 → ∃ t, exec (.ldMemVx x) s = .next t ∧
      (∀ r ≤ x, t.readByte (s.i.toNat + r.val) = s.reg r) ∧
      SameMemoryOutside s.i.toNat (x.val + 1) s t ∧ OnlyMemory s t) ∧
    (4095 < s.i.toNat + x.val → ∃ t, exec (.ldMemVx x) s = .next t ∧ OnlyLatch s t ∧
      Latched .memOutOfRange (encodeWord (.ldMemVx x)) s t)

/-- R165: Fx65 loads V0..Vx from I..I+x when the last byte lies in memory, and else raises MEM_OUT_OF_RANGE with no register
written; and loading what Fx55 stored at the same I reproduces the registers, whatever they were changed to between. -/
def Obligations.LdVxMemLoadsRegisters : Prop :=
  (∀ (s : State) (x : RegIdx),
    (s.i.toNat + x.val ≤ 4095 → ∃ t, exec (.ldVxMem x) s = .next t ∧
      (∀ r ≤ x, t.reg r = s.readByte (s.i.toNat + r.val)) ∧ (∀ r, x < r → t.reg r = s.reg r) ∧
      t.i = s.i ∧ t.pc = s.pc ∧ SameTimers s t ∧ SameStack s t ∧ SamePicture s t ∧ SameMemory s t ∧ Quiet s t) ∧
    (4095 < s.i.toNat + x.val → ∃ t, exec (.ldVxMem x) s = .next t ∧ OnlyLatch s t ∧
      Latched .memOutOfRange (encodeWord (.ldVxMem x)) s t)) ∧
  (∀ (s t u : State) (x : RegIdx), s.i.toNat + x.val ≤ 4095 → exec (.ldMemVx x) s = .next t → u.i = t.i → SameMemory t u →
    ∃ v, exec (.ldVxMem x) u = .next v ∧ ∀ r ≤ x, v.reg r = s.reg r)

/-- A fetch from where Fx55 has just stored reads the stored registers, high byte first: code written as data is executed as
written, with no fence (20_memory.md section 6, derived there). -/
def Obligations.StoresAreFetchedAtOnce : Prop :=
  ∀ (s : State) (x r : RegIdx), s.i.toNat + x.val ≤ 4095 → (h : r.val + 1 ≤ x.val) →
    ∃ t, exec (.ldMemVx x) s = .next t ∧ ∀ w : Word, w.toNat = s.i.toNat + r.val →
      (t.setPc w).fetchable = true ∧
      (t.setPc w).fetchWord.toNat = (s.reg r).toNat * 256 + (s.reg ⟨r.val + 1, by omega⟩).toNat

/-! ## Display (spec/44_display.md) -/

/-- R180: 00E0 turns every pixel off and changes nothing else. -/
def Obligations.ClsTurnsEveryPixelOff : Prop :=
  ∀ (s : State), ∃ t, exec .cls s = .next t ∧ (∀ xx yy, Framebuffer.pixel t.fb xx yy = false) ∧
    SameRegsBut [] s t ∧ t.i = s.i ∧ t.pc = s.pc ∧ SameTimers s t ∧ SameStack s t ∧ SameMemory s t ∧ Quiet s t

/-- Dxyn, seen from the pixels: the two nested loops of 44_display.md do to every pixel of the screen exactly an XOR with the
sprite bit that lands on it (each coordinate wrapped on its own), and VF is 1 exactly when some 1 bit lands on a lit pixel.
With n = 0 nothing is drawn and VF is 0. Reaching past 4095 raises MEM_OUT_OF_RANGE with no pixel and no VF changed (the
spec's decision D4). That no pixel is touched twice, so that the order of the loops cannot matter, is the spec's own
inference, proved here. -/
def Obligations.DrwXorsSpriteIntoPixels : Prop :=
  ∀ (s : State) (x y : RegIdx) (n : Fin 16),
    (¬(0 < n.val ∧ 4095 < s.i.toNat + n.val - 1) →
      ∃ t, exec (.drw x y n) s = .next t ∧
        (∀ xx yy, Framebuffer.pixel t.fb xx yy = (Framebuffer.pixel s.fb xx yy !=
          spriteAt (s.reg x).toNat (s.reg y).toNat ((List.range n.val).map fun r => s.readByte (s.i.toNat + r)) xx yy)) ∧
        ((t.reg vf = 1 ∧ ∃ xx yy, Framebuffer.pixel s.fb xx yy = true ∧ Framebuffer.pixel t.fb xx yy = false) ∨
          (t.reg vf = 0 ∧ ∀ xx yy, Framebuffer.pixel s.fb xx yy = true → Framebuffer.pixel t.fb xx yy = true)) ∧
        SameRegsBut [vf] s t ∧ t.i = s.i ∧ t.pc = s.pc ∧ SameTimers s t ∧ SameStack s t ∧ SameMemory s t ∧ Quiet s t) ∧
    (0 < n.val ∧ 4095 < s.i.toNat + n.val - 1 →
      ∃ t, exec (.drw x y n) s = .next t ∧ OnlyLatch s t ∧ Latched .memOutOfRange (encodeWord (.drw x y n)) s t)

/-- A sprite drawn twice at the same position, from the same bytes, restores the picture, and the second VF is 1 exactly when
some sprite bit is 1 on a pixel lit after the first draw; in particular it is 1 when the first draw was made on a clear screen
with a sprite that has a 1 bit (44_display.md, the two properties, marked derived there). `u` is any state before the second
draw with the same picture, I, memory, Vx and Vy. -/
def Obligations.DrwTwiceRestoresPicture : Prop :=
  ∀ (s t u : State) (x y : RegIdx) (n : Fin 16), ¬(0 < n.val ∧ 4095 < s.i.toNat + n.val - 1) →
    exec (.drw x y n) s = .next t → u.fb = t.fb → u.i = s.i → SameMemory s u → u.reg x = s.reg x → u.reg y = s.reg y →
    ∃ v, exec (.drw x y n) u = .next v ∧ v.fb = s.fb ∧
      (v.reg vf = 1 ↔ ∃ xx yy, Framebuffer.pixel t.fb xx yy = true ∧ spriteAt (s.reg x).toNat (s.reg y).toNat
        ((List.range n.val).map fun r => s.readByte (s.i.toNat + r)) xx yy = true) ∧
      ((∀ xx yy, Framebuffer.pixel s.fb xx yy = false) → (∃ xx yy, Framebuffer.pixel t.fb xx yy = true) → v.reg vf = 1)

/-! ## Keypad and timers (spec/45_keypad_timers.md) -/

/-- Ex9E skips when the key selected by the low 4 bits of Vx is down, ExA1 when it is up; nothing but PC changes. That Vx above
15 selects by its low nibble is the spec's decision D15. -/
def Obligations.KeySkipsTestSelectedKey : Prop :=
  ∀ (s : State) (x : RegIdx),
    (∃ t, exec (.skp x) s = .next t ∧ OnlyPc s t ∧
      t.pc.toNat = if s.port.key.getLsbD ((s.reg x).toNat % 16) then (s.pc.toNat + 2) % 65536 else s.pc.toNat) ∧
    (∃ t, exec (.sknp x) s = .next t ∧ OnlyPc s t ∧
      t.pc.toNat = if s.port.key.getLsbD ((s.reg x).toNat % 16) then s.pc.toNat else (s.pc.toNat + 2) % 65536)

/-- Fx0A: with a key down Vx is the least pressed key's index and nothing else changes (lowest index: the spec's decision D14);
with none down only PC changes, back by 2. -/
def Obligations.KeyWaitTakesLeastKey : Prop :=
  ∀ (s : State) (x : RegIdx),
    (∀ k < 16, s.port.key.getLsbD k = true → (∀ j < k, s.port.key.getLsbD j = false) →
      ∃ t, exec (.ldVxK x) s = .next t ∧ (t.reg x).toNat = k ∧ OnlyRegs [x] s t) ∧
    ((∀ k < 16, s.port.key.getLsbD k = false) →
      ∃ t, exec (.ldVxK x) s = .next t ∧ (t.pc.toNat + 2) % 65536 = s.pc.toNat ∧ OnlyPc s t)

/-- A step that polls Fx0A: with no key down PC ends where it began, no register changes and the timers tick; with a key down
PC advances by 2 (95_test_vectors.md E10; 45_keypad_timers.md, the paragraph of Fx0A; the tick in the poll is decision D3). -/
def Obligations.KeyPollStepHoldsPc : Prop :=
  ∀ (s : State) (x : RegIdx), s.halt = false → s.fetchable = true → decodeWord s.fetchWord = some (.ldVxK x) →
    ∃ t, step s = .next t ∧ t.dt.toNat = s.dt.toNat - 1 ∧ t.st.toNat = s.st.toNat - 1 ∧ SameRegsBut [x] s t ∧
      (s.port.next.key = 0 → t.pc = s.pc ∧ t.reg x = s.reg x) ∧
      (s.port.next.key ≠ 0 → t.pc.toNat = s.pc.toNat + 2 ∧ s.port.next.key.getLsbD (t.reg x).toNat = true)

/-- Fx07, Fx15, Fx18 move a byte between Vx and a timer. In a whole step the tick has come first: Fx07 reads the value after it,
and what Fx15 and Fx18 write stands at the end of the step (tick first: the spec's decision D3). -/
def Obligations.TimerMovesFollowTick : Prop :=
  (∀ (s : State) (x : RegIdx),
    (∃ t, exec (.ldVxDt x) s = .next t ∧ t.reg x = s.dt ∧ OnlyRegs [x] s t) ∧
    (∃ t, exec (.ldDtVx x) s = .next t ∧ t.dt = s.reg x ∧ t.st = s.st ∧ SameRegsBut [] s t ∧ t.i = s.i ∧ t.pc = s.pc ∧
      SameStack s t ∧ SamePicture s t ∧ SameMemory s t ∧ Quiet s t) ∧
    (∃ t, exec (.ldStVx x) s = .next t ∧ t.st = s.reg x ∧ t.dt = s.dt ∧ SameRegsBut [] s t ∧ t.i = s.i ∧ t.pc = s.pc ∧
      SameStack s t ∧ SamePicture s t ∧ SameMemory s t ∧ Quiet s t)) ∧
  (∀ (s : State) (x : RegIdx), s.halt = false → s.fetchable = true →
    (decodeWord s.fetchWord = some (.ldVxDt x) →
      ∃ t, step s = .next t ∧ (t.reg x).toNat = s.dt.toNat - 1 ∧ t.dt.toNat = s.dt.toNat - 1) ∧
    (decodeWord s.fetchWord = some (.ldDtVx x) → ∃ t, step s = .next t ∧ t.dt = s.reg x ∧ t.st.toNat = s.st.toNat - 1) ∧
    (decodeWord s.fetchWord = some (.ldStVx x) → ∃ t, step s = .next t ∧ t.st = s.reg x ∧ t.dt.toNat = s.dt.toNat - 1))

/-- Every step that gets past the fetch ticks each timer once, alone, clamped at 0, whatever the opcode is (known, unknown,
faulting), but for the timer that Fx15 or Fx18 then writes (10_state.md, DT and ST; 40_step_cycle.md phase 3, decision D3). -/
def Obligations.TimersTickOncePerStep : Prop :=
  ∀ (s : State), s.halt = false → s.fetchable = true → ∃ t, step s = .next t ∧
    ((∀ x, decodeWord s.fetchWord ≠ some (.ldDtVx x)) → t.dt.toNat = s.dt.toNat - 1) ∧
    ((∀ x, decodeWord s.fetchWord ≠ some (.ldStVx x)) → t.st.toNat = s.st.toNat - 1)

/-! ## The step (spec/40_step_cycle.md) and errors (spec/60_exceptions.md) -/

/-- A step runs the decoded instruction: phases 1 to 4, then `exec` at the state they leave: inputs sampled, PC advanced by 2
and the timers ticked (in that order: decision D3), everything else as it was. The port's fields are the model's own (log 1,
log 2). -/
def Obligations.StepRunsDecodedInstruction : Prop :=
  ∀ (s : State) (i : Instr), s.halt = false → s.fetchable = true → decodeWord s.fetchWord = some i →
    ∃ u, step s = exec i u ∧ u.pc.toNat = s.pc.toNat + 2 ∧ u.dt.toNat = s.dt.toNat - 1 ∧ u.st.toNat = s.st.toNat - 1 ∧
      SameRegsBut [] s u ∧ u.i = s.i ∧ SameStack s u ∧ SamePicture s u ∧ SameMemory s u ∧ SameLatch s u ∧
      u.port.key = s.port.next.key ∧ u.port.rnd = s.port.next.rnd ∧ u.port.event = .none ∧
      u.port.queue = s.port.queue.tail

/-- R54: the fetched opcode is MEM[PC] * 256 + MEM[PC+1]: the byte at the lower address is its bits 15..8, the other its bits
7..0. -/
def Obligations.FetchIsBigEndian : Prop :=
  ∀ (s : State), s.fetchWord.toNat = (s.readByte s.pc.toNat).toNat * 256 + (s.readByte (s.pc.toNat + 1)).toNat ∧
    s.fetchWord.extractLsb' 8 8 = s.readByte s.pc.toNat ∧ s.fetchWord.extractLsb' 0 8 = s.readByte (s.pc.toNat + 1)

/-- An unknown opcode is reported with the advanced PC and passed over: PC + 2 and the tick, nothing latched, nothing else
(60_exceptions.md section 3; the advanced PC in the report is the spec's decision D8). -/
def Obligations.UnknownOpcodeIsReported : Prop :=
  ∀ (s : State), s.halt = false → s.fetchable = true → wordWellFormed s.fetchWord = false → ∃ t, step s = .next t ∧
    t.port.event = .unknown s.fetchWord t.pc ∧ t.pc.toNat = s.pc.toNat + 2 ∧ t.dt.toNat = s.dt.toNat - 1 ∧
    t.st.toNat = s.st.toNat - 1 ∧ SameRegsBut [] s t ∧ t.i = s.i ∧ SameStack s t ∧ SamePicture s t ∧ SameMemory s t ∧
    SameLatch s t

/-- R231: a fetch that would reach past 4095 sets the latch with cause 1 and opcode 0x0000; PC and the timers stay, nothing
else changes, and the event carries the unchanged PC. -/
def Obligations.FetchPastEndFaults : Prop :=
  ∀ (s : State), s.halt = false → 4095 < s.pc.toNat + 1 → ∃ t, step s = .next t ∧ t.halt = true ∧
    t.faultCause = .fetchOutOfRange ∧ t.faultCause.code = 1 ∧ t.faultOpcode = 0x0000 ∧
    t.port.event = .fault .fetchOutOfRange 0x0000 s.pc ∧ OnlyLatch s t

/-- While HALT = 1 a step changes nothing of the engine and returns EV_NONE (the spec's decision D5). -/
def Obligations.HaltedStepChangesNothing : Prop :=
  ∀ (s : State), s.halt = true → ∃ t, step s = .next t ∧ t.engine = s.engine ∧ t.port.event = .none

/-- Fault entry, for every instruction at once: it raises exactly the fault the table of 60_exceptions.md gives it in that
state, and then changes nothing but HALT, FAULT_CAUSE, FAULT_OPCODE (its own opcode) and the event; where the table gives none,
it completes with the latch and the event untouched. At most one error can arise (the spec's decisions D5, D6, D7, and its
inference in section 4). -/
def Obligations.FaultEntryIsPrecise : Prop :=
  ∀ (i : Instr) (s : State), ∃ t, exec i s = .next t ∧
    match faultIn s i with
    | some cause => OnlyLatch s t ∧ Latched cause (encodeWord i) s t
    | none => Quiet s t

/-- The latch is sticky: no command but `reset` changes it or leaves the halted state, and a halted `step` changes nothing of
the engine and returns EV_NONE; `reset` clears it (60_exceptions.md section 2, the spec's decision D5). -/
def Obligations.OnlyResetLeavesHalt : Prop :=
  ∀ (s : State), s.halt = true →
    (∀ image, ∃ r t, s.obey (.loadProgram image) = .next (r, t) ∧ SameLatch s t) ∧
    (∀ key rnd, ∃ t, s.obey (.step key rnd) = .next (.event .none, t) ∧ t.engine = s.engine) ∧
    (∃ t, s.obey .reset = .next (.done, t) ∧ t.halt = false ∧ t.faultCause = .none ∧ t.faultOpcode = 0x0000)

/-- No opcode is ever without an outcome: every step of every state, and every command, ends in a next state, never in a model
fault or a refusal (40_step_cycle.md phase 5; 50_host_interface.md section 1; log 6). -/
def Obligations.EveryStepAnswersNext : Prop :=
  (∀ s : State, ∃ t, step s = .next t) ∧ (∀ (s : State) (c : Command), ∃ r t, s.obey c = .next (r, t))

/-- PC at the end of a step, from the fetch address, by the table of 10_state.md section 3 (no wrap ever happens: derived there,
and decision D29). -/
def Obligations.PcMovesByTheTable : Prop :=
  ∀ (s : State) (i : Instr), s.halt = false → s.fetchable = true → decodeWord s.fetchWord = some i →
    ∃ t, step s = .next t ∧ t.pc.toNat = pcAfter s s.port.next.key s.pc.toNat i

/-! ## Invariants -/

/-- Every step keeps memory in its canonical form, so no store ever leaves 0x000..0xFFF (20_memory.md section 4, decision D4;
the list form is the model's, log 8). -/
def Obligations.StepKeepsMemoryCanonical : Prop :=
  ∀ s t : State, MemoryCanonical s → step s = .next t → MemoryCanonical t

/-- Every step keeps PC at most 0x10FE and every return address at most 0x1000 (10_state.md section 3: "The largest PC a
program can produce is 0x10FE"; 60_exceptions.md section 1). -/
def Obligations.StepKeepsPcBounded : Prop :=
  ∀ s t : State, PcBounded s → step s = .next t → PcBounded t

/-- Every step keeps the latch truthful: it is set exactly when a cause is recorded, names the opcode that faulted, and the
condition that raised it can still be computed from the state (60_exceptions.md section 1, decisions D5 to D7). -/
def Obligations.StepKeepsLatchTruthful : Prop :=
  ∀ s t : State, LatchTruthful s → step s = .next t → LatchTruthful t

/-- The invariants hold right after reset. -/
def Obligations.ResetMeetsInvariants : Prop := EngineInv State.reset

/-- Whatever the host does, in any order and with any arguments, keeps all the invariants: reset, load_program of any image,
step with any KEY and RND (50_host_interface.md section 4). -/
def Obligations.CommandsKeepInvariants : Prop :=
  ∀ (s : State) (c : Command), EngineInv s → ∃ r t, s.obey c = .next (r, t) ∧ EngineInv t

/-- Two canonical memories that read the same at every address are the same list (the model's form, log 8). -/
def Obligations.EqualReadsAreEqualMemory : Prop :=
  ∀ m n : Memory, m.wf → n.wf → (∀ a, m.read a = n.read a) → m = n

/-! ## Who writes and reads what, over all instructions -/

/-- An instruction writes only the registers that 10_state.md section 1 gives it; VF is written only by the six flag writers and
where it is the destination (VF and the logic rows: decision D12). -/
def Obligations.OnlyDestinationsAreWritten : Prop :=
  ∀ (i : Instr) (s : State), ∃ t, exec i s = .next t ∧ SameRegsBut (dests i) s t

/-- I, DT, ST, the picture, the stack, PC and memory are each changed only by the instructions that 10_state.md and
20_memory.md name; memory only inside the bytes stored at I. -/
def Obligations.OnlyNamedInstructionsWrite : Prop :=
  ∀ (i : Instr) (s : State), ∃ t, exec i s = .next t ∧
    (writesIndex i = false → t.i = s.i) ∧
    ((∀ x, i ≠ .ldDtVx x) → t.dt = s.dt) ∧
    ((∀ x, i ≠ .ldStVx x) → t.st = s.st) ∧
    (writesPicture i = false → SamePicture s t) ∧
    (touchesStack i = false → SameStack s t) ∧
    (movesPc i = false → t.pc = s.pc) ∧
    SameMemoryOutside s.i.toNat (storeLen i) s t

/-- Only Ex9E, ExA1 and Fx0A look at the keypad sample (50_host_interface.md section 2; sampled once a step: decision D24). -/
def Obligations.OnlyKeyInstructionsReadKeypad : Prop :=
  ∀ (i : Instr) (s : State) (k : BitVec 16), readsKey i = false →
    exec i (s.withKey k) = mapNext (·.withKey k) (exec i s)

/-- Given the same engine state and the same KEY and RND, a step gives the same new engine state and the same event, whatever
the model's port held (50_host_interface.md section 1; 10_state.md section 7: the engine keeps no copy of its inputs); and with
nothing presented it takes free values (the model's own, log 1). -/
def Obligations.StepDependsOnStateAndSample : Prop :=
  (∀ (s : State) (p : Port) (key : BitVec 16) (rnd : Byte), ∃ t u, step (s.present key rnd) = .next t ∧
    step (({ s with port := p } : State).present key rnd) = .next u ∧ u.engine = t.engine ∧
    u.port.event = t.port.event ∧ t.port.queue = s.port.queue ∧ u.port.queue = p.queue) ∧
  (∀ s : State, s.port.queue = [] → ∃ t u, step s = .next t ∧
    step (s.present (Config.freeKey s.port.drawn) (Config.freeRnd s.port.drawn)) = .next u ∧ u.engine = t.engine ∧
    u.port.event = t.port.event ∧ t.port.drawn = s.port.drawn + 1)

/-! ## Host commands (spec/50_host_interface.md) -/

/-- R239: more than 3584 bytes return LOAD_OVERFLOW, and no state is touched. -/
def Obligations.LoadOverflowChangesNothing : Prop :=
  ∀ (s : State) (image : List Byte), 3584 < image.length → s.obey (.loadProgram image) = .next (.load .overflow, s)

/-- At most 3584 bytes are copied verbatim to 0x200; every other byte and every other piece of state stays, HALT included
(50_host_interface.md section 1, decision D20). -/
def Obligations.LoadProgramCopiesImage : Prop :=
  ∀ (s : State) (image : List Byte), image.length ≤ 3584 → ∃ t, s.obey (.loadProgram image) = .next (.load .ok, t) ∧
    (∀ k (h : k < image.length), t.readByte (0x200 + k) = image[k]) ∧ SameMemoryOutside 0x200 image.length s t ∧
    ({ t with mem := s.mem } : State) = s

/-- `reset` leaves every piece of engine state at its reset value, whatever it was, and does not touch the inputs. PC, V, stack,
timers, picture and the font's place are the source's; I, the other bytes of memory and the latch are the spec's decisions D18,
D19, D5; the font's bytes are presumed (log 4); the port is the model's (log 12). -/
def Obligations.ResetLeavesResetValues : Prop :=
  ∀ (s : State), ∃ t, s.obey .reset = .next (.done, t) ∧ t.pc = 0x0200 ∧ (∀ r, t.reg r = 0) ∧ t.i = 0 ∧
    (∀ k (h : k < 16), t.stack[k]'h = 0) ∧ t.sp.val = 0 ∧ t.dt = 0 ∧ t.st = 0 ∧
    (∀ xx yy, Framebuffer.pixel t.fb xx yy = false) ∧ t.halt = false ∧ t.faultCause.code = 0 ∧ t.faultOpcode = 0 ∧
    (∀ k < 80, t.readByte (0x050 + k) = font.getD k 0) ∧
    (∀ a < 4096, a < 0x050 ∨ 0x0A0 ≤ a → t.readByte a = 0) ∧ t.port = s.port

/-- R261: the first step after reset fetches from 0x200, the reset value of PC and the load address of programs: after `reset`
of any state and `load_program` of an image, the fetch reads the image's first two bytes. -/
def Obligations.FirstFetchIsAt0x200 : Prop :=
  State.reset.pc.toNat = 0x200 ∧ State.reset.halt = false ∧ State.reset.fetchable = true ∧
  ∀ (s : State) (image : List Byte) (_ : 2 ≤ image.length), image.length ≤ 3584 →
    ∃ t u, s.obey .reset = .next (.done, t) ∧ t.obey (.loadProgram image) = .next (.load .ok, u) ∧
      u.pc.toNat = 0x200 ∧ u.halt = false ∧ u.fetchable = true ∧
      u.fetchWord.toNat = image[0].toNat * 256 + image[1].toNat

/-- The framebuffer is exported whole and row-major: 2048 pixels, pixel (xx, yy) at `yy * 64 + xx`
(50_host_interface.md section 3; 10_state.md section 5). -/
def Obligations.PixelsAreRowMajor : Prop :=
  ∀ (s : State), s.pixels.length = 2048 ∧
    ∀ (xx : Fin 64) (yy : Fin 32), s.pixels[yy.val * 64 + xx.val]? = some (Framebuffer.pixel s.fb xx yy)

/-! ## Encoding (spec/30_encoding.md) -/

/-- Every instruction, with every field value, decodes from its own word and from its two bytes in memory. -/
def Obligations.DecodeOfEncode : Prop :=
  ∀ (i : Instr) (rest : List Byte), decodeWord (encodeWord i) = some i ∧ decode (encode i ++ rest) = .ok (i, rest)

/-- A word that decodes is the word of its instruction: no two words mean the same, don't-care fields included, and the opcode
FAULT_OPCODE holds is the one fetched (log 7). -/
def Obligations.EncodeOfDecode : Prop :=
  ∀ (w : Word) (i : Instr), decodeWord w = some i → encodeWord i = w

/-- The decoder accepts exactly the words some row of the table admits, each gives the instruction of its own row, and no word
is admitted by two rows (30_encoding.md section 3: strict decoding is decision D1, disjointness is derived there). -/
def Obligations.DecoderFollowsTheTable : Prop :=
  (∀ w : Word, (decodeWord w).isSome = wordWellFormed w) ∧
  (∀ (w : Word) (i : Instr), decodeWord w = some i → i.row.admits w = true) ∧
  (∀ (w : Word), ∀ r ∈ opcodeTable, ∀ q ∈ opcodeTable, r.admits w = true → q.admits w = true → r = q)

/-- Six words of the spec's vectors, one per format, decode to the instruction they stand for, and one near-miss of 5xy0 does not
decode: 6A2F, 00EE, 2ABC, 8F15, F265 and 5341 from part 2 of 95_test_vectors.md (A1, F1, F8, the table of 2.5, M24, F18), D013
from its part 3 (P3) and 44_display.md. That 5341 is unknown is decision D1. -/
def Obligations.SampleWordsDecode : Prop :=
  decodeWord 0x6A2F = some (.ldImm 0xA 0x2F) ∧ decodeWord 0x00EE = some .ret ∧ decodeWord 0x2ABC = some (.call 0xABC) ∧
    decodeWord 0x8F15 = some (.sub 0xF 0x1) ∧ decodeWord 0xD013 = some (.drw 0x0 0x1 0x3) ∧
    decodeWord 0xF265 = some (.ldVxMem 0x2) ∧ decodeWord 0x5341 = none
end

