-- ==== Sys2Proof/Laws/Decode.lean ====
section
/-! SUPPORT. The fields of a word built by a format are the fields it was built from (spec/30_encoding.md R81, R82), and a word
is its two bytes. -/

namespace Sys2Proof

@[simp] theorem opFamily_wordNnn (f : BitVec 4) (nnn : BitVec 12) : opFamily (wordNnn f nnn) = f := by
  simp only [opFamily, wordNnn, BitVec.extractLsb'_append_eq_left]

@[simp] theorem opNnn_wordNnn (f : BitVec 4) (nnn : BitVec 12) : opNnn (wordNnn f nnn) = nnn := by
  simp only [opNnn, wordNnn, BitVec.extractLsb'_append_eq_right]

/-- The number a word of format F_NNN is. -/
theorem toNat_wordNnn (f : BitVec 4) (nnn : BitVec 12) : (wordNnn f nnn).toNat = f.toNat * 4096 + nnn.toNat := by
  simp only [wordNnn, BitVec.toNat_append]
  rw [← Nat.shiftLeft_add_eq_or_of_lt nnn.isLt, Nat.shiftLeft_eq]

/-- The number a word of format F_XKK is. -/
theorem toNat_wordXkk (f : BitVec 4) (x : RegIdx) (kk : Byte) :
    (wordXkk f x kk).toNat = f.toNat * 4096 + x.val * 256 + kk.toNat := by
  have hx := x.isLt
  have hk := kk.isLt
  simp only [wordXkk, BitVec.toNat_append, BitVec.toNat_ofFin]
  rw [← Nat.shiftLeft_add_eq_or_of_lt (by omega), ← Nat.shiftLeft_add_eq_or_of_lt (by omega)]
  simp only [Nat.shiftLeft_eq]; omega

/-- The number a word of format F_XYN is. -/
theorem toNat_wordXyn (f : BitVec 4) (x y : RegIdx) (n : Fin 16) :
    (wordXyn f x y n).toNat = f.toNat * 4096 + x.val * 256 + y.val * 16 + n.val := by
  have hx := x.isLt
  have hy := y.isLt
  have hn := n.isLt
  simp only [wordXyn, BitVec.toNat_append, BitVec.toNat_ofFin]
  rw [← Nat.shiftLeft_add_eq_or_of_lt (by omega), ← Nat.shiftLeft_add_eq_or_of_lt (by omega),
    ← Nat.shiftLeft_add_eq_or_of_lt (by omega)]
  simp only [Nat.shiftLeft_eq]; omega

/-! The fields of a word as numbers -/

theorem toNat_opFamily (w : Word) : (opFamily w).toNat = w.toNat / 4096 := by
  have := w.isLt
  simp only [opFamily, BitVec.extractLsb'_toNat, Nat.shiftRight_eq_div_pow]; omega

theorem val_opX (w : Word) : (opX w).val = w.toNat / 256 % 16 := by
  simp only [opX, BitVec.val_toFin, BitVec.extractLsb'_toNat, Nat.shiftRight_eq_div_pow]

theorem val_opY (w : Word) : (opY w).val = w.toNat / 16 % 16 := by
  simp only [opY, BitVec.val_toFin, BitVec.extractLsb'_toNat, Nat.shiftRight_eq_div_pow]

theorem val_opN (w : Word) : (opN w).val = w.toNat % 16 := by
  simp only [opN, BitVec.val_toFin, BitVec.extractLsb'_toNat, Nat.shiftRight_eq_div_pow]; omega

theorem toNat_opKk (w : Word) : (opKk w).toNat = w.toNat % 256 := by
  simp only [opKk, BitVec.extractLsb'_toNat, Nat.shiftRight_eq_div_pow]; omega

theorem toNat_opNnn (w : Word) : (opNnn w).toNat = w.toNat % 4096 := by
  simp only [opNnn, BitVec.extractLsb'_toNat, Nat.shiftRight_eq_div_pow]; omega

@[simp] theorem opFamily_wordXkk (f : BitVec 4) (x : RegIdx) (kk : Byte) : opFamily (wordXkk f x kk) = f := by
  have := f.isLt
  have := x.isLt
  have := kk.isLt
  apply BitVec.eq_of_toNat_eq; rw [toNat_opFamily, toNat_wordXkk]; omega

@[simp] theorem opX_wordXkk (f : BitVec 4) (x : RegIdx) (kk : Byte) : opX (wordXkk f x kk) = x := by
  have := kk.isLt
  apply Fin.ext; rw [val_opX, toNat_wordXkk]; omega

@[simp] theorem opKk_wordXkk (f : BitVec 4) (x : RegIdx) (kk : Byte) : opKk (wordXkk f x kk) = kk := by
  have := kk.isLt
  apply BitVec.eq_of_toNat_eq; rw [toNat_opKk, toNat_wordXkk]; omega

@[simp] theorem opFamily_wordXyn (f : BitVec 4) (x y : RegIdx) (n : Fin 16) : opFamily (wordXyn f x y n) = f := by
  have := f.isLt
  apply BitVec.eq_of_toNat_eq; rw [toNat_opFamily, toNat_wordXyn]; omega

@[simp] theorem opX_wordXyn (f : BitVec 4) (x y : RegIdx) (n : Fin 16) : opX (wordXyn f x y n) = x := by
  apply Fin.ext; rw [val_opX, toNat_wordXyn]; omega

@[simp] theorem opY_wordXyn (f : BitVec 4) (x y : RegIdx) (n : Fin 16) : opY (wordXyn f x y n) = y := by
  apply Fin.ext; rw [val_opY, toNat_wordXyn]; omega

@[simp] theorem opN_wordXyn (f : BitVec 4) (x y : RegIdx) (n : Fin 16) : opN (wordXyn f x y n) = n := by
  apply Fin.ext; rw [val_opN, toNat_wordXyn]; omega

/-! A word under the table's masks (spec/30_encoding.md R85) -/

/-- The mask of formats F_NNN, F_XKK, F_XYN keeps the family. -/
theorem toNat_and_F000 (w : Word) : (w &&& 0xF000#16).toNat = w.toNat / 4096 * 4096 := by
  have h : w &&& 0xF000#16 = w >>> 12 <<< 12 := by
    ext i hi; interval_cases i <;> simp
  have := w.isLt
  rw [h]
  simp only [BitVec.toNat_shiftLeft, BitVec.toNat_ushiftRight, Nat.shiftLeft_eq, Nat.shiftRight_eq_div_pow]
  omega

/-- The mask of format F_XY keeps the family and the low nibble. -/
theorem toNat_and_F00F (w : Word) : (w &&& 0xF00F#16).toNat = w.toNat / 4096 * 4096 + w.toNat % 16 := by
  have h : w &&& 0xF00F#16 = (w &&& 0xF000#16) + (w &&& 0x000F#16) := by
    rw [BitVec.add_eq_or_of_and_eq_zero] <;> ext i hi <;> interval_cases i <;> simp
  have := w.isLt
  rw [h, BitVec.toNat_add, toNat_and_F000, BitVec.toNat_and]
  have : w.toNat &&& (0x000F#16).toNat = w.toNat % 16 := Nat.and_two_pow_sub_one_eq_mod w.toNat 4
  omega

/-- The mask of format F_X keeps the family and the low byte. -/
theorem toNat_and_F0FF (w : Word) : (w &&& 0xF0FF#16).toNat = w.toNat / 4096 * 4096 + w.toNat % 256 := by
  have h : w &&& 0xF0FF#16 = (w &&& 0xF000#16) + (w &&& 0x00FF#16) := by
    rw [BitVec.add_eq_or_of_and_eq_zero] <;> ext i hi <;> interval_cases i <;> simp
  have := w.isLt
  rw [h, BitVec.toNat_add, toNat_and_F000, BitVec.toNat_and]
  have : w.toNat &&& (0x00FF#16).toNat = w.toNat % 256 := Nat.and_two_pow_sub_one_eq_mod w.toNat 8
  omega

/-! A word and its bytes -/

@[simp] theorem wordOfBytes_bytes (w : Word) : wordOfBytes (highByte w) (lowByte w) = w := by
  have := w.isLt
  apply BitVec.eq_of_toNat_eq
  simp only [wordOfBytes, highByte, lowByte, BitVec.toNat_append]
  rw [← Nat.shiftLeft_add_eq_or_of_lt (by simp only [BitVec.extractLsb'_toNat]; omega)]
  simp only [BitVec.extractLsb'_toNat, Nat.shiftRight_eq_div_pow, Nat.shiftLeft_eq]; omega

/-- The number two bytes form, big-endian (20_memory.md R54). -/
theorem toNat_wordOfBytes (hi lo : Byte) : (wordOfBytes hi lo).toNat = hi.toNat * 256 + lo.toNat := by
  simp only [wordOfBytes, BitVec.toNat_append]
  rw [← Nat.shiftLeft_add_eq_or_of_lt lo.isLt, Nat.shiftLeft_eq]

/-- The table's word decodes as the word does. -/
theorem decodeTableWord_eq (nbits w : Nat) : decodeTableWord nbits w = decodeWord (tableWord nbits w) := by
  simp only [decodeTableWord, decode, wordOfBytes_bytes]
  cases decodeWord (tableWord nbits w) <;> rfl

end Sys2Proof
end

