-- ==== Sys2Proof/Laws/Memory.lean ====
section
/-! SUPPORT. MEM: a read after a write, the canonical form, and that equal memories are equal lists. -/

namespace Sys2Proof.Machine

theorem Memory.read_erase (m : Memory) (a k : Nat) :
    (m.erase a).read k = if k = a then resetByte a else m.read k := by
  induction m with
  | nil => simp [Memory.erase, Memory.read]; intro h; rw [h]
  | cons c rest ih =>
    obtain ⟨j, b⟩ := c
    simp only [Memory.erase, List.filter_cons] at ih ⊢
    by_cases hj : j = a
    · subst hj; simp only [bne_self_eq_false, Bool.false_eq_true, if_false, ih, Memory.read]
      split <;> simp_all [eq_comm]
    · simp only [bne_iff_ne, ne_eq, hj, not_false_eq_true, if_true, Memory.read, ih]
      split <;> simp_all

theorem Memory.read_insert (m : Memory) (a : Nat) (b : Byte) (h : ∀ c ∈ m, c.1 ≠ a) (k : Nat) :
    (Memory.insert a b m).read k = if k = a then b else m.read k := by
  induction m with
  | nil => simp [Memory.insert, Memory.read, eq_comm]
  | cons c rest ih =>
    obtain ⟨j, d⟩ := c
    have hj : j ≠ a := h (j, d) (by simp)
    have ih := ih (fun c hc => h c (by simp [hc]))
    simp only [Memory.insert]
    split
    · simp [Memory.read, eq_comm]
    · simp only [Memory.read, ih]
      split <;> simp_all

theorem Memory.ne_of_mem_erase (m : Memory) (a : Nat) : ∀ c ∈ m.erase a, c.1 ≠ a := by
  simp [Memory.erase]

/-- A read after a write: the byte written, or what any other address held. -/
@[simp] theorem Memory.read_write (m : Memory) (a : Nat) (b : Byte) (k : Nat) :
    (m.write a b).read k = if k = a then b else m.read k := by
  unfold Memory.write
  split
  · simp_all [Memory.read_erase]
  · rw [Memory.read_insert _ _ _ (m.ne_of_mem_erase a), Memory.read_erase]
    split <;> simp_all

/-- A read after single-byte writes at ascending addresses: byte `k - a` inside, the old byte outside. -/
theorem Memory.read_writeBytes (m : Memory) (a : Nat) (bs : List Byte) (k : Nat) :
    (m.writeBytes a bs).read k = if h : a ≤ k ∧ k < a + bs.length then bs[k - a]'(by omega) else m.read k := by
  induction bs generalizing m a with
  | nil => simp [Memory.writeBytes]
  | cons b bs ih =>
    simp only [Memory.writeBytes, ih, Memory.read_write, List.length_cons]
    by_cases h1 : a + 1 ≤ k ∧ k < a + 1 + bs.length
    · have h2 : a ≤ k ∧ k < a + (bs.length + 1) := by omega
      obtain ⟨j, rfl⟩ : ∃ j, k = a + 1 + j := ⟨k - (a + 1), by omega⟩
      have e : a + 1 + j - a = j + 1 := by omega
      have e' : a + 1 + j - (a + 1) = j := by omega
      simp only [h1, h2, and_self, dif_pos, e, e', List.getElem_cons_succ]
    · rw [dif_neg h1]
      by_cases h2 : a ≤ k ∧ k < a + (bs.length + 1)
      · have : k = a := by omega
        subst this; simp
      · have : k ≠ a := by omega
        simp [this, h2]

/-- Outside the written bytes nothing changes. -/
theorem Memory.read_writeBytes_outside (m : Memory) (a : Nat) (bs : List Byte) (k : Nat)
    (h : k < a ∨ a + bs.length ≤ k) : (m.writeBytes a bs).read k = m.read k := by
  rw [Memory.read_writeBytes, dif_neg (by omega)]

/-- Inside the written bytes the byte written is read. -/
theorem Memory.read_writeBytes_inside (m : Memory) (a : Nat) (bs : List Byte) (j : Nat) (h : j < bs.length) :
    (m.writeBytes a bs).read (a + j) = bs[j] := by
  rw [Memory.read_writeBytes, dif_pos (by omega)]
  congr 1; omega

@[simp] theorem Memory.length_readBytes (m : Memory) (a n : Nat) : (m.readBytes a n).length = n := by
  induction n generalizing a with
  | zero => rfl
  | succ n ih => simp [Memory.readBytes, ih]

/-- Byte `j` of a block read is the byte at `a + j`. -/
@[simp] theorem Memory.getElem_readBytes (m : Memory) (a n j : Nat) (h : j < (m.readBytes a n).length) :
    (m.readBytes a n)[j] = m.read (a + j) := by
  induction n generalizing a j with
  | zero => simp [Memory.readBytes] at h
  | succ n ih =>
    cases j with
    | zero => simp [Memory.readBytes]
    | succ j =>
      simp only [Memory.readBytes, List.getElem_cons_succ]
      rw [ih (a + 1) j (by simpa [Memory.readBytes] using h)]
      congr 1; omega

/-! The canonical form -/

theorem Memory.nil_wf : Memory.wf [] := by simp [Memory.wf]

theorem Memory.erase_wf (m : Memory) (a : Nat) (h : m.wf) : (m.erase a).wf :=
  ⟨h.1.filter _, fun c hc => h.2 c (List.mem_of_mem_filter hc)⟩

theorem Memory.mem_insert (a : Nat) (b : Byte) (m : Memory) (c : Host.Cell) :
    c ∈ Memory.insert a b m ↔ c = (a, b) ∨ c ∈ m := by
  induction m with
  | nil => simp [Memory.insert]
  | cons d rest ih =>
    obtain ⟨j, e⟩ := d
    simp only [Memory.insert]
    split <;> simp_all [or_left_comm]

theorem Memory.insert_wf (m : Memory) (a : Nat) (b : Byte) (h : m.wf) (hne : ∀ c ∈ m, c.1 ≠ a)
    (ha : a < Config.memSize) (hb : b ≠ resetByte a) : (Memory.insert a b m).wf := by
  refine ⟨?_, fun c hc => ?_⟩
  · have hs := h.1
    clear h
    induction m with
    | nil => simp [Memory.insert]
    | cons d rest ih =>
      obtain ⟨j, e⟩ := d
      rw [List.pairwise_cons] at hs
      have hj : j ≠ a := hne (j, e) (by simp)
      simp only [Memory.insert]
      split
      · rename_i hlt
        refine List.pairwise_cons.2 ⟨fun c hc => ?_, List.pairwise_cons.2 hs⟩
        rcases List.mem_cons.1 hc with rfl | hc
        · exact hlt
        · exact Nat.lt_trans hlt (hs.1 c hc)
      · refine List.pairwise_cons.2 ⟨fun c hc => ?_, ih (fun c hc => hne c (by simp [hc])) hs.2⟩
        rcases (Memory.mem_insert ..).1 hc with rfl | hc
        · show j < a; omega
        · exact hs.1 c hc
  · rcases (Memory.mem_insert ..).1 hc with rfl | hc
    · exact ⟨ha, hb⟩
    · exact h.2 c hc

/-- A write inside the address space keeps the canonical form. -/
theorem Memory.write_wf (m : Memory) (a : Nat) (b : Byte) (h : m.wf) (ha : a < Config.memSize) : (m.write a b).wf := by
  unfold Memory.write
  split
  · exact m.erase_wf a h
  · exact Memory.insert_wf _ a b (m.erase_wf a h) (m.ne_of_mem_erase a) ha ‹_›

/-- Single-byte writes inside the address space keep the canonical form. -/
theorem Memory.writeBytes_wf (m : Memory) (a : Nat) (bs : List Byte) (h : m.wf)
    (ha : bs = [] ∨ a + bs.length ≤ Config.memSize) : (m.writeBytes a bs).wf := by
  induction bs generalizing m a with
  | nil => exact h
  | cons b bs ih =>
    have ha : a + (bs.length + 1) ≤ Config.memSize := by simpa using ha
    exact ih _ _ (m.write_wf a b h (by omega)) (Or.inr (by omega))

end Sys2Proof.Machine
end

