-- ==== Sys2Proof/Laws/State.lean ====
section
/-! SUPPORT. One lemma per field per update of the state, so that no later proof unfolds a record update; and the reads
`reg` and `readByte` over every update. -/

namespace Sys2Proof.Machine

variable (s : State)

/-! setReg -/

@[simp] theorem State.v_setReg (x : RegIdx) (b : Byte) : (s.setReg x b).v = s.v.set x.val b x.isLt := rfl
@[simp] theorem State.i_setReg (x : RegIdx) (b : Byte) : (s.setReg x b).i = s.i := rfl
@[simp] theorem State.pc_setReg (x : RegIdx) (b : Byte) : (s.setReg x b).pc = s.pc := rfl
@[simp] theorem State.stack_setReg (x : RegIdx) (b : Byte) : (s.setReg x b).stack = s.stack := rfl
@[simp] theorem State.sp_setReg (x : RegIdx) (b : Byte) : (s.setReg x b).sp = s.sp := rfl
@[simp] theorem State.dt_setReg (x : RegIdx) (b : Byte) : (s.setReg x b).dt = s.dt := rfl
@[simp] theorem State.st_setReg (x : RegIdx) (b : Byte) : (s.setReg x b).st = s.st := rfl
@[simp] theorem State.fb_setReg (x : RegIdx) (b : Byte) : (s.setReg x b).fb = s.fb := rfl
@[simp] theorem State.mem_setReg (x : RegIdx) (b : Byte) : (s.setReg x b).mem = s.mem := rfl
@[simp] theorem State.halt_setReg (x : RegIdx) (b : Byte) : (s.setReg x b).halt = s.halt := rfl
@[simp] theorem State.faultCause_setReg (x : RegIdx) (b : Byte) : (s.setReg x b).faultCause = s.faultCause := rfl
@[simp] theorem State.faultOpcode_setReg (x : RegIdx) (b : Byte) : (s.setReg x b).faultOpcode = s.faultOpcode := rfl
@[simp] theorem State.port_setReg (x : RegIdx) (b : Byte) : (s.setReg x b).port = s.port := rfl
@[simp] theorem State.readByte_setReg (x : RegIdx) (b : Byte) (a : Nat) : (s.setReg x b).readByte a = s.readByte a := rfl

/-! setI -/

@[simp] theorem State.v_setI (w : Word) : (s.setI w).v = s.v := rfl
@[simp] theorem State.i_setI (w : Word) : (s.setI w).i = w := rfl
@[simp] theorem State.pc_setI (w : Word) : (s.setI w).pc = s.pc := rfl
@[simp] theorem State.stack_setI (w : Word) : (s.setI w).stack = s.stack := rfl
@[simp] theorem State.sp_setI (w : Word) : (s.setI w).sp = s.sp := rfl
@[simp] theorem State.dt_setI (w : Word) : (s.setI w).dt = s.dt := rfl
@[simp] theorem State.st_setI (w : Word) : (s.setI w).st = s.st := rfl
@[simp] theorem State.fb_setI (w : Word) : (s.setI w).fb = s.fb := rfl
@[simp] theorem State.mem_setI (w : Word) : (s.setI w).mem = s.mem := rfl
@[simp] theorem State.halt_setI (w : Word) : (s.setI w).halt = s.halt := rfl
@[simp] theorem State.faultCause_setI (w : Word) : (s.setI w).faultCause = s.faultCause := rfl
@[simp] theorem State.faultOpcode_setI (w : Word) : (s.setI w).faultOpcode = s.faultOpcode := rfl
@[simp] theorem State.port_setI (w : Word) : (s.setI w).port = s.port := rfl
@[simp] theorem State.reg_setI (w : Word) (y : RegIdx) : (s.setI w).reg y = s.reg y := rfl
@[simp] theorem State.readByte_setI (w : Word) (a : Nat) : (s.setI w).readByte a = s.readByte a := rfl

/-! setPc -/

@[simp] theorem State.v_setPc (w : Word) : (s.setPc w).v = s.v := rfl
@[simp] theorem State.i_setPc (w : Word) : (s.setPc w).i = s.i := rfl
@[simp] theorem State.pc_setPc (w : Word) : (s.setPc w).pc = w := rfl
@[simp] theorem State.stack_setPc (w : Word) : (s.setPc w).stack = s.stack := rfl
@[simp] theorem State.sp_setPc (w : Word) : (s.setPc w).sp = s.sp := rfl
@[simp] theorem State.dt_setPc (w : Word) : (s.setPc w).dt = s.dt := rfl
@[simp] theorem State.st_setPc (w : Word) : (s.setPc w).st = s.st := rfl
@[simp] theorem State.fb_setPc (w : Word) : (s.setPc w).fb = s.fb := rfl
@[simp] theorem State.mem_setPc (w : Word) : (s.setPc w).mem = s.mem := rfl
@[simp] theorem State.halt_setPc (w : Word) : (s.setPc w).halt = s.halt := rfl
@[simp] theorem State.faultCause_setPc (w : Word) : (s.setPc w).faultCause = s.faultCause := rfl
@[simp] theorem State.faultOpcode_setPc (w : Word) : (s.setPc w).faultOpcode = s.faultOpcode := rfl
@[simp] theorem State.port_setPc (w : Word) : (s.setPc w).port = s.port := rfl
@[simp] theorem State.reg_setPc (w : Word) (y : RegIdx) : (s.setPc w).reg y = s.reg y := rfl
@[simp] theorem State.readByte_setPc (w : Word) (a : Nat) : (s.setPc w).readByte a = s.readByte a := rfl

/-! setDt -/

@[simp] theorem State.v_setDt (b : Byte) : (s.setDt b).v = s.v := rfl
@[simp] theorem State.i_setDt (b : Byte) : (s.setDt b).i = s.i := rfl
@[simp] theorem State.pc_setDt (b : Byte) : (s.setDt b).pc = s.pc := rfl
@[simp] theorem State.stack_setDt (b : Byte) : (s.setDt b).stack = s.stack := rfl
@[simp] theorem State.sp_setDt (b : Byte) : (s.setDt b).sp = s.sp := rfl
@[simp] theorem State.dt_setDt (b : Byte) : (s.setDt b).dt = b := rfl
@[simp] theorem State.st_setDt (b : Byte) : (s.setDt b).st = s.st := rfl
@[simp] theorem State.fb_setDt (b : Byte) : (s.setDt b).fb = s.fb := rfl
@[simp] theorem State.mem_setDt (b : Byte) : (s.setDt b).mem = s.mem := rfl
@[simp] theorem State.halt_setDt (b : Byte) : (s.setDt b).halt = s.halt := rfl
@[simp] theorem State.faultCause_setDt (b : Byte) : (s.setDt b).faultCause = s.faultCause := rfl
@[simp] theorem State.faultOpcode_setDt (b : Byte) : (s.setDt b).faultOpcode = s.faultOpcode := rfl
@[simp] theorem State.port_setDt (b : Byte) : (s.setDt b).port = s.port := rfl
@[simp] theorem State.reg_setDt (b : Byte) (y : RegIdx) : (s.setDt b).reg y = s.reg y := rfl
@[simp] theorem State.readByte_setDt (b : Byte) (a : Nat) : (s.setDt b).readByte a = s.readByte a := rfl

/-! setSt -/

@[simp] theorem State.v_setSt (b : Byte) : (s.setSt b).v = s.v := rfl
@[simp] theorem State.i_setSt (b : Byte) : (s.setSt b).i = s.i := rfl
@[simp] theorem State.pc_setSt (b : Byte) : (s.setSt b).pc = s.pc := rfl
@[simp] theorem State.stack_setSt (b : Byte) : (s.setSt b).stack = s.stack := rfl
@[simp] theorem State.sp_setSt (b : Byte) : (s.setSt b).sp = s.sp := rfl
@[simp] theorem State.dt_setSt (b : Byte) : (s.setSt b).dt = s.dt := rfl
@[simp] theorem State.st_setSt (b : Byte) : (s.setSt b).st = b := rfl
@[simp] theorem State.fb_setSt (b : Byte) : (s.setSt b).fb = s.fb := rfl
@[simp] theorem State.mem_setSt (b : Byte) : (s.setSt b).mem = s.mem := rfl
@[simp] theorem State.halt_setSt (b : Byte) : (s.setSt b).halt = s.halt := rfl
@[simp] theorem State.faultCause_setSt (b : Byte) : (s.setSt b).faultCause = s.faultCause := rfl
@[simp] theorem State.faultOpcode_setSt (b : Byte) : (s.setSt b).faultOpcode = s.faultOpcode := rfl
@[simp] theorem State.port_setSt (b : Byte) : (s.setSt b).port = s.port := rfl
@[simp] theorem State.reg_setSt (b : Byte) (y : RegIdx) : (s.setSt b).reg y = s.reg y := rfl
@[simp] theorem State.readByte_setSt (b : Byte) (a : Nat) : (s.setSt b).readByte a = s.readByte a := rfl

/-! setFb -/

@[simp] theorem State.v_setFb (f : Framebuffer) : (s.setFb f).v = s.v := rfl
@[simp] theorem State.i_setFb (f : Framebuffer) : (s.setFb f).i = s.i := rfl
@[simp] theorem State.pc_setFb (f : Framebuffer) : (s.setFb f).pc = s.pc := rfl
@[simp] theorem State.stack_setFb (f : Framebuffer) : (s.setFb f).stack = s.stack := rfl
@[simp] theorem State.sp_setFb (f : Framebuffer) : (s.setFb f).sp = s.sp := rfl
@[simp] theorem State.dt_setFb (f : Framebuffer) : (s.setFb f).dt = s.dt := rfl
@[simp] theorem State.st_setFb (f : Framebuffer) : (s.setFb f).st = s.st := rfl
@[simp] theorem State.fb_setFb (f : Framebuffer) : (s.setFb f).fb = f := rfl
@[simp] theorem State.mem_setFb (f : Framebuffer) : (s.setFb f).mem = s.mem := rfl
@[simp] theorem State.halt_setFb (f : Framebuffer) : (s.setFb f).halt = s.halt := rfl
@[simp] theorem State.faultCause_setFb (f : Framebuffer) : (s.setFb f).faultCause = s.faultCause := rfl
@[simp] theorem State.faultOpcode_setFb (f : Framebuffer) : (s.setFb f).faultOpcode = s.faultOpcode := rfl
@[simp] theorem State.port_setFb (f : Framebuffer) : (s.setFb f).port = s.port := rfl
@[simp] theorem State.reg_setFb (f : Framebuffer) (y : RegIdx) : (s.setFb f).reg y = s.reg y := rfl
@[simp] theorem State.readByte_setFb (f : Framebuffer) (a : Nat) : (s.setFb f).readByte a = s.readByte a := rfl

/-! storeBytes -/

@[simp] theorem State.v_storeBytes (a : Nat) (bs : List Byte) : (s.storeBytes a bs).v = s.v := rfl
@[simp] theorem State.i_storeBytes (a : Nat) (bs : List Byte) : (s.storeBytes a bs).i = s.i := rfl
@[simp] theorem State.pc_storeBytes (a : Nat) (bs : List Byte) : (s.storeBytes a bs).pc = s.pc := rfl
@[simp] theorem State.stack_storeBytes (a : Nat) (bs : List Byte) : (s.storeBytes a bs).stack = s.stack := rfl
@[simp] theorem State.sp_storeBytes (a : Nat) (bs : List Byte) : (s.storeBytes a bs).sp = s.sp := rfl
@[simp] theorem State.dt_storeBytes (a : Nat) (bs : List Byte) : (s.storeBytes a bs).dt = s.dt := rfl
@[simp] theorem State.st_storeBytes (a : Nat) (bs : List Byte) : (s.storeBytes a bs).st = s.st := rfl
@[simp] theorem State.fb_storeBytes (a : Nat) (bs : List Byte) : (s.storeBytes a bs).fb = s.fb := rfl
@[simp] theorem State.mem_storeBytes (a : Nat) (bs : List Byte) : (s.storeBytes a bs).mem = s.mem.writeBytes a bs := rfl
@[simp] theorem State.halt_storeBytes (a : Nat) (bs : List Byte) : (s.storeBytes a bs).halt = s.halt := rfl
@[simp] theorem State.faultCause_storeBytes (a : Nat) (bs : List Byte) : (s.storeBytes a bs).faultCause = s.faultCause := rfl
@[simp] theorem State.faultOpcode_storeBytes (a : Nat) (bs : List Byte) : (s.storeBytes a bs).faultOpcode = s.faultOpcode := rfl
@[simp] theorem State.port_storeBytes (a : Nat) (bs : List Byte) : (s.storeBytes a bs).port = s.port := rfl
@[simp] theorem State.reg_storeBytes (a : Nat) (bs : List Byte) (y : RegIdx) : (s.storeBytes a bs).reg y = s.reg y := rfl

/-! raise -/

@[simp] theorem State.v_raise (c : FaultCause) (op : Word) : (s.raise c op).v = s.v := rfl
@[simp] theorem State.i_raise (c : FaultCause) (op : Word) : (s.raise c op).i = s.i := rfl
@[simp] theorem State.pc_raise (c : FaultCause) (op : Word) : (s.raise c op).pc = s.pc := rfl
@[simp] theorem State.stack_raise (c : FaultCause) (op : Word) : (s.raise c op).stack = s.stack := rfl
@[simp] theorem State.sp_raise (c : FaultCause) (op : Word) : (s.raise c op).sp = s.sp := rfl
@[simp] theorem State.dt_raise (c : FaultCause) (op : Word) : (s.raise c op).dt = s.dt := rfl
@[simp] theorem State.st_raise (c : FaultCause) (op : Word) : (s.raise c op).st = s.st := rfl
@[simp] theorem State.fb_raise (c : FaultCause) (op : Word) : (s.raise c op).fb = s.fb := rfl
@[simp] theorem State.mem_raise (c : FaultCause) (op : Word) : (s.raise c op).mem = s.mem := rfl
@[simp] theorem State.halt_raise (c : FaultCause) (op : Word) : (s.raise c op).halt = true := rfl
@[simp] theorem State.faultCause_raise (c : FaultCause) (op : Word) : (s.raise c op).faultCause = c := rfl
@[simp] theorem State.faultOpcode_raise (c : FaultCause) (op : Word) : (s.raise c op).faultOpcode = op := rfl
@[simp] theorem State.port_raise (c : FaultCause) (op : Word) : (s.raise c op).port = { s.port with event := .fault c op s.pc } := rfl
@[simp] theorem State.reg_raise (c : FaultCause) (op : Word) (y : RegIdx) : (s.raise c op).reg y = s.reg y := rfl
@[simp] theorem State.readByte_raise (c : FaultCause) (op : Word) (a : Nat) : (s.raise c op).readByte a = s.readByte a := rfl

/-! reportUnknown -/

@[simp] theorem State.v_reportUnknown (op : Word) : (s.reportUnknown op).v = s.v := rfl
@[simp] theorem State.i_reportUnknown (op : Word) : (s.reportUnknown op).i = s.i := rfl
@[simp] theorem State.pc_reportUnknown (op : Word) : (s.reportUnknown op).pc = s.pc := rfl
@[simp] theorem State.stack_reportUnknown (op : Word) : (s.reportUnknown op).stack = s.stack := rfl
@[simp] theorem State.sp_reportUnknown (op : Word) : (s.reportUnknown op).sp = s.sp := rfl
@[simp] theorem State.dt_reportUnknown (op : Word) : (s.reportUnknown op).dt = s.dt := rfl
@[simp] theorem State.st_reportUnknown (op : Word) : (s.reportUnknown op).st = s.st := rfl
@[simp] theorem State.fb_reportUnknown (op : Word) : (s.reportUnknown op).fb = s.fb := rfl
@[simp] theorem State.mem_reportUnknown (op : Word) : (s.reportUnknown op).mem = s.mem := rfl
@[simp] theorem State.halt_reportUnknown (op : Word) : (s.reportUnknown op).halt = s.halt := rfl
@[simp] theorem State.faultCause_reportUnknown (op : Word) : (s.reportUnknown op).faultCause = s.faultCause := rfl
@[simp] theorem State.faultOpcode_reportUnknown (op : Word) : (s.reportUnknown op).faultOpcode = s.faultOpcode := rfl
@[simp] theorem State.port_reportUnknown (op : Word) : (s.reportUnknown op).port = { s.port with event := .unknown op s.pc } := rfl
@[simp] theorem State.reg_reportUnknown (op : Word) (y : RegIdx) : (s.reportUnknown op).reg y = s.reg y := rfl
@[simp] theorem State.readByte_reportUnknown (op : Word) (a : Nat) : (s.reportUnknown op).readByte a = s.readByte a := rfl

/-! begin -/

@[simp] theorem State.v_begin : (s.begin).v = s.v := rfl
@[simp] theorem State.i_begin : (s.begin).i = s.i := rfl
@[simp] theorem State.pc_begin : (s.begin).pc = s.pc := rfl
@[simp] theorem State.stack_begin : (s.begin).stack = s.stack := rfl
@[simp] theorem State.sp_begin : (s.begin).sp = s.sp := rfl
@[simp] theorem State.dt_begin : (s.begin).dt = s.dt := rfl
@[simp] theorem State.st_begin : (s.begin).st = s.st := rfl
@[simp] theorem State.fb_begin : (s.begin).fb = s.fb := rfl
@[simp] theorem State.mem_begin : (s.begin).mem = s.mem := rfl
@[simp] theorem State.halt_begin : (s.begin).halt = s.halt := rfl
@[simp] theorem State.faultCause_begin : (s.begin).faultCause = s.faultCause := rfl
@[simp] theorem State.faultOpcode_begin : (s.begin).faultOpcode = s.faultOpcode := rfl
@[simp] theorem State.port_begin : (s.begin).port = s.port.begin := rfl
@[simp] theorem State.reg_begin (y : RegIdx) : (s.begin).reg y = s.reg y := rfl
@[simp] theorem State.readByte_begin (a : Nat) : (s.begin).readByte a = s.readByte a := rfl

/-! present -/

@[simp] theorem State.v_present (k : BitVec 16) (r : Byte) : (s.present k r).v = s.v := rfl
@[simp] theorem State.i_present (k : BitVec 16) (r : Byte) : (s.present k r).i = s.i := rfl
@[simp] theorem State.pc_present (k : BitVec 16) (r : Byte) : (s.present k r).pc = s.pc := rfl
@[simp] theorem State.stack_present (k : BitVec 16) (r : Byte) : (s.present k r).stack = s.stack := rfl
@[simp] theorem State.sp_present (k : BitVec 16) (r : Byte) : (s.present k r).sp = s.sp := rfl
@[simp] theorem State.dt_present (k : BitVec 16) (r : Byte) : (s.present k r).dt = s.dt := rfl
@[simp] theorem State.st_present (k : BitVec 16) (r : Byte) : (s.present k r).st = s.st := rfl
@[simp] theorem State.fb_present (k : BitVec 16) (r : Byte) : (s.present k r).fb = s.fb := rfl
@[simp] theorem State.mem_present (k : BitVec 16) (r : Byte) : (s.present k r).mem = s.mem := rfl
@[simp] theorem State.halt_present (k : BitVec 16) (r : Byte) : (s.present k r).halt = s.halt := rfl
@[simp] theorem State.faultCause_present (k : BitVec 16) (r : Byte) : (s.present k r).faultCause = s.faultCause := rfl
@[simp] theorem State.faultOpcode_present (k : BitVec 16) (r : Byte) : (s.present k r).faultOpcode = s.faultOpcode := rfl
@[simp] theorem State.port_present (k : BitVec 16) (r : Byte) : (s.present k r).port = { s.port with queue := ⟨k, r⟩ :: s.port.queue } := rfl
@[simp] theorem State.reg_present (k : BitVec 16) (r : Byte) (y : RegIdx) : (s.present k r).reg y = s.reg y := rfl
@[simp] theorem State.readByte_present (k : BitVec 16) (r : Byte) (a : Nat) : (s.present k r).readByte a = s.readByte a := rfl

/-! advance -/

@[simp] theorem State.v_advance : (s.advance).v = s.v := rfl
@[simp] theorem State.i_advance : (s.advance).i = s.i := rfl
@[simp] theorem State.pc_advance : (s.advance).pc = s.pc + 2 := rfl
@[simp] theorem State.stack_advance : (s.advance).stack = s.stack := rfl
@[simp] theorem State.sp_advance : (s.advance).sp = s.sp := rfl
@[simp] theorem State.dt_advance : (s.advance).dt = s.dt := rfl
@[simp] theorem State.st_advance : (s.advance).st = s.st := rfl
@[simp] theorem State.fb_advance : (s.advance).fb = s.fb := rfl
@[simp] theorem State.mem_advance : (s.advance).mem = s.mem := rfl
@[simp] theorem State.halt_advance : (s.advance).halt = s.halt := rfl
@[simp] theorem State.faultCause_advance : (s.advance).faultCause = s.faultCause := rfl
@[simp] theorem State.faultOpcode_advance : (s.advance).faultOpcode = s.faultOpcode := rfl
@[simp] theorem State.port_advance : (s.advance).port = s.port := rfl
@[simp] theorem State.reg_advance (y : RegIdx) : (s.advance).reg y = s.reg y := rfl
@[simp] theorem State.readByte_advance (a : Nat) : (s.advance).readByte a = s.readByte a := rfl

/-! tick -/

@[simp] theorem State.v_tick : (s.tick).v = s.v := rfl
@[simp] theorem State.i_tick : (s.tick).i = s.i := rfl
@[simp] theorem State.pc_tick : (s.tick).pc = s.pc := rfl
@[simp] theorem State.stack_tick : (s.tick).stack = s.stack := rfl
@[simp] theorem State.sp_tick : (s.tick).sp = s.sp := rfl
@[simp] theorem State.dt_tick : (s.tick).dt = timerTick s.dt := rfl
@[simp] theorem State.st_tick : (s.tick).st = timerTick s.st := rfl
@[simp] theorem State.fb_tick : (s.tick).fb = s.fb := rfl
@[simp] theorem State.mem_tick : (s.tick).mem = s.mem := rfl
@[simp] theorem State.halt_tick : (s.tick).halt = s.halt := rfl
@[simp] theorem State.faultCause_tick : (s.tick).faultCause = s.faultCause := rfl
@[simp] theorem State.faultOpcode_tick : (s.tick).faultOpcode = s.faultOpcode := rfl
@[simp] theorem State.port_tick : (s.tick).port = s.port := rfl
@[simp] theorem State.reg_tick (y : RegIdx) : (s.tick).reg y = s.reg y := rfl
@[simp] theorem State.readByte_tick (a : Nat) : (s.tick).readByte a = s.readByte a := rfl

/-! enter -/

@[simp] theorem State.v_enter : (s.enter).v = s.v := rfl
@[simp] theorem State.i_enter : (s.enter).i = s.i := rfl
@[simp] theorem State.pc_enter : (s.enter).pc = s.pc + 2 := rfl
@[simp] theorem State.stack_enter : (s.enter).stack = s.stack := rfl
@[simp] theorem State.sp_enter : (s.enter).sp = s.sp := rfl
@[simp] theorem State.dt_enter : (s.enter).dt = timerTick s.dt := rfl
@[simp] theorem State.st_enter : (s.enter).st = timerTick s.st := rfl
@[simp] theorem State.fb_enter : (s.enter).fb = s.fb := rfl
@[simp] theorem State.mem_enter : (s.enter).mem = s.mem := rfl
@[simp] theorem State.halt_enter : (s.enter).halt = s.halt := rfl
@[simp] theorem State.faultCause_enter : (s.enter).faultCause = s.faultCause := rfl
@[simp] theorem State.faultOpcode_enter : (s.enter).faultOpcode = s.faultOpcode := rfl
@[simp] theorem State.port_enter : (s.enter).port = s.port := rfl
@[simp] theorem State.reg_enter (y : RegIdx) : (s.enter).reg y = s.reg y := rfl
@[simp] theorem State.readByte_enter (a : Nat) : (s.enter).readByte a = s.readByte a := rfl

/-! engine -/

@[simp] theorem State.v_engine : (s.engine).v = s.v := rfl
@[simp] theorem State.i_engine : (s.engine).i = s.i := rfl
@[simp] theorem State.pc_engine : (s.engine).pc = s.pc := rfl
@[simp] theorem State.stack_engine : (s.engine).stack = s.stack := rfl
@[simp] theorem State.sp_engine : (s.engine).sp = s.sp := rfl
@[simp] theorem State.dt_engine : (s.engine).dt = s.dt := rfl
@[simp] theorem State.st_engine : (s.engine).st = s.st := rfl
@[simp] theorem State.fb_engine : (s.engine).fb = s.fb := rfl
@[simp] theorem State.mem_engine : (s.engine).mem = s.mem := rfl
@[simp] theorem State.halt_engine : (s.engine).halt = s.halt := rfl
@[simp] theorem State.faultCause_engine : (s.engine).faultCause = s.faultCause := rfl
@[simp] theorem State.faultOpcode_engine : (s.engine).faultOpcode = s.faultOpcode := rfl
@[simp] theorem State.port_engine : (s.engine).port = Port.reset := rfl
@[simp] theorem State.reg_engine (y : RegIdx) : (s.engine).reg y = s.reg y := rfl
@[simp] theorem State.readByte_engine (a : Nat) : (s.engine).readByte a = s.readByte a := rfl

/-! withRnd -/

@[simp] theorem State.v_withRnd (r : Byte) : (s.withRnd r).v = s.v := rfl
@[simp] theorem State.i_withRnd (r : Byte) : (s.withRnd r).i = s.i := rfl
@[simp] theorem State.pc_withRnd (r : Byte) : (s.withRnd r).pc = s.pc := rfl
@[simp] theorem State.stack_withRnd (r : Byte) : (s.withRnd r).stack = s.stack := rfl
@[simp] theorem State.sp_withRnd (r : Byte) : (s.withRnd r).sp = s.sp := rfl
@[simp] theorem State.dt_withRnd (r : Byte) : (s.withRnd r).dt = s.dt := rfl
@[simp] theorem State.st_withRnd (r : Byte) : (s.withRnd r).st = s.st := rfl
@[simp] theorem State.fb_withRnd (r : Byte) : (s.withRnd r).fb = s.fb := rfl
@[simp] theorem State.mem_withRnd (r : Byte) : (s.withRnd r).mem = s.mem := rfl
@[simp] theorem State.halt_withRnd (r : Byte) : (s.withRnd r).halt = s.halt := rfl
@[simp] theorem State.faultCause_withRnd (r : Byte) : (s.withRnd r).faultCause = s.faultCause := rfl
@[simp] theorem State.faultOpcode_withRnd (r : Byte) : (s.withRnd r).faultOpcode = s.faultOpcode := rfl
@[simp] theorem State.port_withRnd (r : Byte) : (s.withRnd r).port = { s.port with rnd := r } := rfl
@[simp] theorem State.reg_withRnd (r : Byte) (y : RegIdx) : (s.withRnd r).reg y = s.reg y := rfl
@[simp] theorem State.readByte_withRnd (r : Byte) (a : Nat) : (s.withRnd r).readByte a = s.readByte a := rfl

/-! withKey -/

@[simp] theorem State.v_withKey (k : BitVec 16) : (s.withKey k).v = s.v := rfl
@[simp] theorem State.i_withKey (k : BitVec 16) : (s.withKey k).i = s.i := rfl
@[simp] theorem State.pc_withKey (k : BitVec 16) : (s.withKey k).pc = s.pc := rfl
@[simp] theorem State.stack_withKey (k : BitVec 16) : (s.withKey k).stack = s.stack := rfl
@[simp] theorem State.sp_withKey (k : BitVec 16) : (s.withKey k).sp = s.sp := rfl
@[simp] theorem State.dt_withKey (k : BitVec 16) : (s.withKey k).dt = s.dt := rfl
@[simp] theorem State.st_withKey (k : BitVec 16) : (s.withKey k).st = s.st := rfl
@[simp] theorem State.fb_withKey (k : BitVec 16) : (s.withKey k).fb = s.fb := rfl
@[simp] theorem State.mem_withKey (k : BitVec 16) : (s.withKey k).mem = s.mem := rfl
@[simp] theorem State.halt_withKey (k : BitVec 16) : (s.withKey k).halt = s.halt := rfl
@[simp] theorem State.faultCause_withKey (k : BitVec 16) : (s.withKey k).faultCause = s.faultCause := rfl
@[simp] theorem State.faultOpcode_withKey (k : BitVec 16) : (s.withKey k).faultOpcode = s.faultOpcode := rfl
@[simp] theorem State.port_withKey (k : BitVec 16) : (s.withKey k).port = { s.port with key := k } := rfl
@[simp] theorem State.reg_withKey (k : BitVec 16) (y : RegIdx) : (s.withKey k).reg y = s.reg y := rfl
@[simp] theorem State.readByte_withKey (k : BitVec 16) (a : Nat) : (s.withKey k).readByte a = s.readByte a := rfl

/-! The two reads that an update changes -/

/-- A register read after a register write: the value written, or the old one elsewhere. -/
@[simp] theorem State.reg_setReg (x : RegIdx) (b : Byte) (y : RegIdx) :
    (s.setReg x b).reg y = if y = x then b else s.reg y := by
  simp only [State.reg, State.setReg, Vector.getElem_set, Fin.val_inj, eq_comm]

/-- Writing back what a register holds changes nothing. -/
theorem State.setReg_reg (x : RegIdx) : s.setReg x (s.reg x) = s := by
  simp [State.setReg, State.reg]

theorem State.readByte_storeBytes (a : Nat) (bs : List Byte) (k : Nat) :
    (s.storeBytes a bs).readByte k = (s.mem.writeBytes a bs).read k := rfl

/-! The port at the start of a step -/

@[simp] theorem Port.begin_queue (p : Port) : p.begin.queue = p.queue.tail := rfl
@[simp] theorem Port.begin_drawn (p : Port) : p.begin.drawn = p.drawnAfter := rfl
@[simp] theorem Port.begin_key (p : Port) : p.begin.key = p.next.key := rfl
@[simp] theorem Port.begin_rnd (p : Port) : p.begin.rnd = p.next.rnd := rfl
@[simp] theorem Port.begin_event (p : Port) : p.begin.event = .none := rfl

/-- A presented sample is the one the step takes, and no free value is drawn. -/
@[simp] theorem State.present_begin (k : BitVec 16) (r : Byte) :
    (s.present k r).port.begin = { s.port with key := k, rnd := r, event := .none } := rfl

/-- With nothing presented, the step takes free values. -/
theorem Port.next_of_empty (p : Port) (h : p.queue = []) :
    p.next = ⟨Config.freeKey p.drawn, Config.freeRnd p.drawn⟩ := by
  simp [Port.next, h]

end Sys2Proof.Machine
end

