-- ==== Sys2Proof/Laws/Ops.lean ====
section
/-! SUPPORT. One lemma per shared operation over the state, that says what it can do. -/

namespace Sys2Proof.Machine

variable (s : State)

/-! Timers -/

/-- A tick over the natural numbers: down by one, clamped at 0 (spec/10_state.md R25). -/
@[simp] theorem toNat_timerTick (t : Byte) : (timerTick t).toNat = t.toNat - 1 := by
  unfold timerTick
  split
  · simp_all
  · rename_i h
    have h0 : t.toNat ≠ 0 := fun e => h (BitVec.eq_of_toNat_eq (by simpa using e))
    have := t.isLt
    rw [BitVec.toNat_sub_of_le] <;> simp [BitVec.le_def]; omega

/-! Fetch -/

theorem fetchable_iff : s.fetchable = true ↔ s.pc.toNat + 1 ≤ 4095 := by simp [State.fetchable]

/-- The fetched opcode, big-endian (spec/20_memory.md R54). -/
theorem toNat_fetchWord :
    s.fetchWord.toNat = (s.readByte s.pc.toNat).toNat * 256 + (s.readByte (s.pc.toNat + 1)).toNat :=
  toNat_wordOfBytes ..

/-- After a successful fetch the advance does not wrap (spec/40_step_cycle.md R103). -/
theorem toNat_advance (h : s.fetchable = true) : (s.pc + 2).toNat = s.pc.toNat + 2 := by
  rw [fetchable_iff] at h
  rw [BitVec.toNat_add]; simp; omega

/-- A placed opcode is what the next fetch reads. -/
theorem fetchWord_placeWord (w : Word) (h : s.fetchable = true) : (s.placeWord w).fetchWord = w := by
  have e : s.placeWord w = s.storeBytes s.pc.toNat [highByte w, lowByte w] := by simp [State.placeWord, h]
  rw [e, State.fetchWord, State.pc_storeBytes, State.readByte_storeBytes, State.readByte_storeBytes,
    Memory.read_writeBytes, Memory.read_writeBytes, dif_pos (by simp), dif_pos (by simp)]
  simp

/-! Register blocks -/

/-- A block load: the first `n` registers hold the bytes at `a ..`, the others what they held. -/
theorem reg_loadRegs (a n : Nat) (hn : n ≤ 16) (r : RegIdx) :
    (s.loadRegs a n).reg r = if r.val < n then s.readByte (a + r.val) else s.reg r := by
  induction n with
  | zero => simp [State.loadRegs]
  | succ k ih =>
    have hk : (lowNibble k).val = k := Nat.mod_eq_of_lt (by omega)
    simp only [State.loadRegs, State.reg_setReg, ih (by omega), Fin.ext_iff, hk]
    by_cases h : r.val = k
    · simp [h]
    · have : r.val < k + 1 ↔ r.val < k := by omega
      simp [h, this]

/-- A block load writes registers only. -/
theorem loadRegs_frame (a n : Nat) : ∃ v, s.loadRegs a n = { s with v := v } := by
  induction n with
  | zero => exact ⟨s.v, rfl⟩
  | succ k ih =>
    obtain ⟨v, h⟩ := ih
    simp only [State.loadRegs, h]
    exact ⟨_, rfl⟩

theorem loadRegs_succ (a k : Nat) :
    s.loadRegs a (k + 1) = (s.loadRegs a k).setReg (lowNibble k) (s.readByte (a + k)) := rfl

end Sys2Proof.Machine
end

