-- ==== Sys2Proof/Laws/Operands.lean ====
section
/-! SUPPORT. The operand forms and the flag writes: one lemma each that says what they can do. -/

namespace Sys2Proof.Machine

variable (s : State)

@[simp] theorem toNat_addrImm (nnn : BitVec 12) : (addrImm nnn).toNat = nnn.toNat := by
  have := nnn.isLt
  simp only [addrImm, BitVec.toNat_setWidth]; omega

@[simp] theorem toNat_wideByte (b : Byte) : (wideByte b).toNat = b.toNat := by
  have := b.isLt
  simp only [wideByte, BitVec.toNat_setWidth]; omega

/-- The bound of a data access, as spec/20_memory.md R58 writes it. -/
theorem outOfRange_iff (len : Nat) : s.outOfRange len = true ↔ 0 < len ∧ 4095 < s.i.toNat + len - 1 := by
  simp [State.outOfRange]

/-- In range the instruction does what it does. -/
theorem guardAccess_done (len : Nat) (op : Word) (t : State) (h : ¬(0 < len ∧ 4095 < s.i.toNat + len - 1)) :
    s.guardAccess len op t = t := by
  simp only [State.guardAccess, outOfRange_iff, h, if_false]

/-- Out of range it raises MEM_OUT_OF_RANGE and nothing else. -/
theorem guardAccess_raise (len : Nat) (op : Word) (t : State) (h : 0 < len ∧ 4095 < s.i.toNat + len - 1) :
    s.guardAccess len op t = s.raise .memOutOfRange op := by
  rw [State.guardAccess, if_pos ((outOfRange_iff s len).2 h)]

@[simp] theorem val_keyIndex (b : Byte) : (keyIndex b).val = b.toNat % 16 := rfl

/-- No key is found exactly when none is down. -/
theorem firstKey_none (key : BitVec 16) : firstKey key = none ↔ ∀ k < 16, key.getLsbD k = false := by
  simp [firstKey]

/-- The key found is down, and every lower one is up. -/
theorem firstKey_some (key : BitVec 16) (k : Nat) (h : firstKey key = some k) :
    k < 16 ∧ key.getLsbD k = true ∧ ∀ j < k, key.getLsbD j = false := by
  have hk := List.mem_of_find?_eq_some h
  have hp := List.find?_some h
  obtain ⟨-, i, hi, e, hlt⟩ := List.find?_eq_some_iff_getElem.1 h
  simp only [List.length_range] at hi
  rw [List.getElem_range] at e
  subst e
  exact ⟨hi, by simpa using hp, fun j hj => by simpa [List.getElem_range] using hlt j hj⟩

/-- V0..Vx as a list: `x + 1` bytes, byte `k` is Vk. -/
@[simp] theorem length_regsUpTo (x : RegIdx) : (s.regsUpTo x).length = x.val + 1 := by
  have := x.isLt
  simp [State.regsUpTo]

theorem getElem_regsUpTo (x : RegIdx) (k : Nat) (h : k < (s.regsUpTo x).length) :
    (s.regsUpTo x)[k] = s.reg ⟨k, by simp at h; omega⟩ := by
  simp [State.regsUpTo, State.reg]

@[simp] theorem length_decimalDigits (a : Byte) : (decimalDigits a).length = 3 := rfl

/-- A skip moves PC and nothing else. -/
theorem skipIf_eq (c : Bool) : s.skipIf c = s.setPc (if c then s.pc + 2 else s.pc) := by
  cases c <;> rfl

/-! Flags -/

@[simp] theorem toNat_flagByte (c : Bool) : (flagByte c).toNat = if c then 1 else 0 := by cases c <;> rfl

theorem reg_resultThenFlag (x : RegIdx) (b : Byte) (c : Bool) (r : RegIdx) :
    (s.resultThenFlag x b c).reg r = if r = vf then flagByte c else if r = x then b else s.reg r := by
  simp [State.resultThenFlag]

theorem reg_flagThenResult (x : RegIdx) (b : Byte) (c : Bool) (r : RegIdx) :
    (s.flagThenResult x c b).reg r = if r = x then b else if r = vf then flagByte c else s.reg r := by
  simp [State.flagThenResult]

/-- Both orders write registers only. -/
theorem resultThenFlag_frame (x : RegIdx) (b : Byte) (c : Bool) : ∃ v, s.resultThenFlag x b c = { s with v := v } :=
  ⟨_, rfl⟩

theorem flagThenResult_frame (x : RegIdx) (b : Byte) (c : Bool) : ∃ v, s.flagThenResult x c b = { s with v := v } :=
  ⟨_, rfl⟩

/-! The stack and the key poll -/

/-- A pop of a stack that is not empty. -/
theorem popPc_pos (op : Word) (h : 0 < s.sp.val) :
    s.popPc op = { s with sp := ⟨s.sp.val - 1, by omega⟩, pc := s.stack[s.sp.val - 1]'(by omega) } := by
  rw [State.popPc, dif_neg (by omega)]

/-- A pop of an empty stack raises STACK_UNDERFLOW and nothing else. -/
theorem popPc_zero (op : Word) (h : s.sp.val = 0) : s.popPc op = s.raise .stackUnderflow op := by
  rw [State.popPc, dif_pos h]

/-- A push onto a stack that is not full. -/
theorem pushPc_lt (op target : Word) (h : s.sp.val < 16) :
    s.pushPc op target =
      { s with stack := s.stack.set s.sp.val s.pc h, sp := ⟨s.sp.val + 1, by omega⟩, pc := target } := by
  rw [State.pushPc, dif_pos h]

/-- A push onto a full stack raises STACK_OVERFLOW and nothing else. -/
theorem pushPc_full (op target : Word) (h : s.sp.val = 16) : s.pushPc op target = s.raise .stackOverflow op := by
  rw [State.pushPc, dif_neg (by omega)]

/-- A poll with no key down steps PC back. -/
theorem pollKey_none (x : RegIdx) (h : firstKey s.port.key = none) : s.pollKey x = s.setPc (s.pc - 2) := by
  simp [State.pollKey, h]

/-- A poll that finds a key writes its index. -/
theorem pollKey_some (x : RegIdx) (k : Nat) (h : firstKey s.port.key = some k) :
    s.pollKey x = s.setReg x (BitVec.ofNat 8 k) := by
  simp [State.pollKey, h]

end Sys2Proof.Machine
end

