-- ==== Sys2Proof/Laws/Display.lean ====
section
/-! SUPPORT. The framebuffer: a pixel after a write, and what a drawn row and a drawn sprite do to every pixel and to the
collision flag (spec/44_display.md R181). -/

namespace Sys2Proof.Machine

theorem pixel_setPixel (f : Framebuffer) (xx : Fin 64) (yy : Fin 32) (p : Bool) (x : Fin 64) (y : Fin 32) :
    Framebuffer.pixel (Framebuffer.setPixel f xx yy p) x y =
      if x = xx ∧ y = yy then p else Framebuffer.pixel f x y := by
  simp only [Framebuffer.pixel, Framebuffer.setPixel, Vector.getElem_set, Fin.val_inj]
  by_cases hy : yy = y
  · subst hy
    by_cases hx : xx = x <;> simp_all [Fin.val_inj, eq_comm]
  · simp [hy, eq_comm (a := y)]

@[simp] theorem pixel_blank (x : Fin 64) (y : Fin 32) : Framebuffer.pixel Framebuffer.blank x y = false := by
  simp [Framebuffer.pixel, Framebuffer.blank]

/-- Two pictures with the same pixels are one. -/
theorem framebuffer_ext (f g : Framebuffer) (h : ∀ x y, Framebuffer.pixel f x y = Framebuffer.pixel g x y) : f = g := by
  apply Vector.ext
  intro i hi
  apply Vector.ext
  intro j hj
  exact h ⟨j, hj⟩ ⟨i, hi⟩

theorem spriteCol_lt (a : Nat) (x : Fin 64) : spriteCol a x < 64 := Nat.mod_lt _ (by decide)

/-- The pixel that column `c` lands on, and only that one. -/
theorem spriteCol_eq_iff (a c : Nat) (hc : c < 64) (x : Fin 64) : spriteCol a x = c ↔ x = wrapCol (a + c) := by
  have := x.isLt
  simp only [spriteCol, Fin.ext_iff, wrapCol]
  omega

/-- After the first `n` bits of a row: they are XORed into the pixels they land on. -/
theorem drawBits_pixel (a b : Nat) (row : Byte) (acc : Framebuffer × Bool) (n : Nat) (hn : n ≤ 8) (x : Fin 64) (y : Fin 32) :
    Framebuffer.pixel ((List.range n).foldl (drawBit a b row) acc).1 x y =
      (Framebuffer.pixel acc.1 x y ^^
        (decide (y = wrapRow b) && decide (spriteCol a x < n) && row.getLsbD (7 - spriteCol a x))) := by
  induction n with
  | zero => simp
  | succ n ih =>
    have ih := ih (by omega)
    rw [List.range_succ, List.foldl_append, List.foldl_cons, List.foldl_nil]
    simp only [drawBit, pixel_setPixel]
    have hiff := spriteCol_eq_iff a n (by omega) x
    by_cases hx : x = wrapCol (a + n)
    · have hc := hiff.2 hx
      by_cases hy : y = wrapRow b
      · rw [if_pos ⟨hx, hy⟩, ← hx, ← hy, ih]
        simp [hc]
      · rw [if_neg (fun h => hy h.2), ih]
        simp [hy]
    · have hc : spriteCol a x ≠ n := fun h => hx (hiff.1 h)
      have : decide (spriteCol a x < n + 1) = decide (spriteCol a x < n) := by
        apply decide_eq_decide.2; omega
      rw [if_neg (fun h => hx h.1), ih, this]

/-- After the first `n` bits of a row: the flag is set if it was, or if one of them is a 1 on a lit pixel. -/
theorem drawBits_collision (a b : Nat) (row : Byte) (acc : Framebuffer × Bool) (n : Nat) (hn : n ≤ 8) :
    ((List.range n).foldl (drawBit a b row) acc).2 = true ↔
      acc.2 = true ∨ ∃ x, spriteCol a x < n ∧ row.getLsbD (7 - spriteCol a x) = true ∧
        Framebuffer.pixel acc.1 x (wrapRow b) = true := by
  induction n with
  | zero => simp
  | succ n ih =>
    have ih := ih (by omega)
    rw [List.range_succ, List.foldl_append, List.foldl_cons, List.foldl_nil]
    simp only [drawBit, Bool.or_eq_true, ih, Bool.and_eq_true, drawBits_pixel a b row acc n (by omega)]
    have hcol : spriteCol a (wrapCol (a + n)) = n := (spriteCol_eq_iff a n (by omega) _).2 rfl
    simp only [hcol, Nat.lt_irrefl, decide_false, Bool.and_false, Bool.false_and, Bool.xor_false]
    constructor
    · rintro ((h | ⟨x, h1, h2, h3⟩) | ⟨h1, h2⟩)
      · exact .inl h
      · exact .inr ⟨x, by omega, h2, h3⟩
      · exact .inr ⟨_, by rw [hcol]; omega, by rw [hcol]; exact h1, h2⟩
    · rintro (h | ⟨x, h1, h2, h3⟩)
      · exact .inl (.inl h)
      · by_cases hx : spriteCol a x = n
        · have := (spriteCol_eq_iff a n (by omega) x).1 hx
          subst this
          exact .inr ⟨by rw [hcol] at h2; exact h2, h3⟩
        · exact .inl (.inr ⟨x, by omega, h2, h3⟩)

theorem spriteRow_zero (b : Nat) (y : Fin 32) : spriteRow b y = 0 ↔ y = wrapRow b := by
  have := y.isLt
  simp only [spriteRow, Fin.ext_iff, wrapRow]
  omega

theorem spriteRow_succ (b : Nat) (y : Fin 32) (h : spriteRow b y ≠ 0) :
    spriteRow b y = spriteRow (b + 1) y + 1 := by
  have := y.isLt
  simp only [spriteRow] at *
  omega

theorem spriteRow_last (b : Nat) (y : Fin 32) (h : spriteRow b y = 0) : spriteRow (b + 1) y = 31 := by
  have := y.isLt
  simp only [spriteRow] at *
  omega

/-- A sprite is its first row and, one row down, the rest. -/
theorem spriteAt_cons (a b : Nat) (row : Byte) (rows : List Byte) (x : Fin 64) (y : Fin 32) :
    spriteAt a b (row :: rows) x y =
      if y = wrapRow b then decide (spriteCol a x < 8) && row.getLsbD (7 - spriteCol a x)
      else spriteAt a (b + 1) rows x y := by
  by_cases h : spriteRow b y = 0
  · rw [if_pos ((spriteRow_zero b y).1 h)]
    simp [spriteAt, h]
  · rw [if_neg (fun e => h ((spriteRow_zero b y).2 e))]
    simp [spriteAt, spriteRow_succ b y h]

theorem spriteAt_first (a b : Nat) (rows : List Byte) (hlen : rows.length ≤ 31) (x : Fin 64) (y : Fin 32)
    (h : y = wrapRow b) : spriteAt a (b + 1) rows x y = false := by
  have hrow := spriteRow_last b y ((spriteRow_zero b y).2 h)
  have : rows[31]? = none := List.getElem?_eq_none (by omega)
  simp [spriteAt, hrow, this]

/-- Drawing a sprite XORs into every pixel the sprite bit that lands on it. -/
theorem drawSprite_pixel (a b : Nat) (rows : List Byte) (acc : Framebuffer × Bool) (hlen : rows.length ≤ 32) (x : Fin 64)
    (y : Fin 32) :
    Framebuffer.pixel (drawSprite a b rows acc).1 x y = (Framebuffer.pixel acc.1 x y ^^ spriteAt a b rows x y) := by
  induction rows generalizing b acc with
  | nil => simp [drawSprite, spriteAt]
  | cons row rows ih =>
    have hlen' : rows.length ≤ 31 := by simp only [List.length_cons] at hlen; omega
    rw [drawSprite, ih (b + 1) _ (by omega), drawRow, drawBits_pixel a b row acc 8 (Nat.le_refl _),
      spriteAt_cons a b row rows]
    by_cases h : y = wrapRow b
    · rw [spriteAt_first a b rows hlen' x y h]; simp [h]
    · simp [h]

/-- The flag after a sprite: it was set, or some sprite bit is 1 on a pixel that was lit. -/
theorem drawSprite_collision (a b : Nat) (rows : List Byte) (acc : Framebuffer × Bool) (hlen : rows.length ≤ 32) :
    (drawSprite a b rows acc).2 = true ↔
      acc.2 = true ∨ ∃ x y, spriteAt a b rows x y = true ∧ Framebuffer.pixel acc.1 x y = true := by
  induction rows generalizing b acc with
  | nil => simp [drawSprite, spriteAt]
  | cons row rows ih =>
    have hlen' : rows.length ≤ 31 := by simp only [List.length_cons] at hlen; omega
    rw [drawSprite, ih (b + 1) _ (by omega), drawRow, drawBits_collision a b row acc 8 (Nat.le_refl _)]
    have hpix := drawBits_pixel a b row acc 8 (Nat.le_refl _)
    constructor
    · rintro ((h | ⟨x, h1, h2, h3⟩) | ⟨x, y, h1, h2⟩)
      · exact .inl h
      · exact .inr ⟨x, _, by rw [spriteAt_cons a b row rows]; simp [h1, h2], h3⟩
      · have hy : y ≠ wrapRow b := fun e => by simp [spriteAt_first a b rows hlen' x y e] at h1
        rw [hpix] at h2
        exact .inr ⟨x, y, by rw [spriteAt_cons a b row rows, if_neg hy]; exact h1, by simpa [hy] using h2⟩
    · rintro (h | ⟨x, y, h1, h2⟩)
      · exact .inl (.inl h)
      · rw [spriteAt_cons a b row rows] at h1
        by_cases hy : y = wrapRow b
        · subst hy
          simp only [if_true, Bool.and_eq_true, decide_eq_true_eq] at h1
          exact .inl (.inr ⟨x, h1.1, h1.2, h2⟩)
        · rw [if_neg hy] at h1
          exact .inr ⟨x, y, h1, by rw [hpix]; simpa [hy] using h2⟩

end Sys2Proof.Machine
end

