-- ==== Sys2Proof/Laws/Frames.lean ====
section
/-! SUPPORT. What each shared operation leaves as it was, in the terms of Safety.lean, and what the fault table says of each
instruction that can fault. -/

namespace Sys2Proof.Machine

variable (s : State)

theorem onlyRegs_setReg (x : RegIdx) (b : Byte) : OnlyRegs [x] s (s.setReg x b) := by
  refine ⟨fun r hr => ?_, rfl, rfl, ⟨rfl, rfl⟩, ⟨rfl, rfl⟩, rfl, fun _ => rfl, ⟨rfl, rfl, rfl⟩, rfl⟩
  simp only [List.mem_singleton] at hr
  simp [hr]

theorem onlyRegs_resultThenFlag (x : RegIdx) (b : Byte) (c : Bool) : OnlyRegs [x, vf] s (s.resultThenFlag x b c) := by
  refine ⟨fun r hr => ?_, rfl, rfl, ⟨rfl, rfl⟩, ⟨rfl, rfl⟩, rfl, fun _ => rfl, ⟨rfl, rfl, rfl⟩, rfl⟩
  simp only [List.mem_cons, List.not_mem_nil, or_false, not_or] at hr
  rw [reg_resultThenFlag, if_neg hr.2, if_neg hr.1]

theorem onlyRegs_flagThenResult (x : RegIdx) (b : Byte) (c : Bool) : OnlyRegs [x, vf] s (s.flagThenResult x c b) := by
  refine ⟨fun r hr => ?_, rfl, rfl, ⟨rfl, rfl⟩, ⟨rfl, rfl⟩, rfl, fun _ => rfl, ⟨rfl, rfl, rfl⟩, rfl⟩
  simp only [List.mem_cons, List.not_mem_nil, or_false, not_or] at hr
  rw [reg_flagThenResult, if_neg hr.1, if_neg hr.2]

theorem onlyPc_setPc (w : Word) : OnlyPc s (s.setPc w) :=
  ⟨fun _ _ => rfl, rfl, ⟨rfl, rfl⟩, ⟨rfl, rfl⟩, rfl, fun _ => rfl, ⟨rfl, rfl, rfl⟩, rfl⟩

theorem onlyI_setI (w : Word) : OnlyI s (s.setI w) :=
  ⟨fun _ _ => rfl, rfl, ⟨rfl, rfl⟩, ⟨rfl, rfl⟩, rfl, fun _ => rfl, ⟨rfl, rfl, rfl⟩, rfl⟩

theorem onlyMemory_storeBytes (a : Nat) (bs : List Byte) : OnlyMemory s (s.storeBytes a bs) :=
  ⟨fun _ _ => rfl, rfl, rfl, ⟨rfl, rfl⟩, ⟨rfl, rfl⟩, rfl, ⟨rfl, rfl, rfl⟩, rfl⟩

theorem onlyLatch_raise (c : FaultCause) (op : Word) : OnlyLatch s (s.raise c op) :=
  ⟨fun _ _ => rfl, rfl, rfl, ⟨rfl, rfl⟩, ⟨rfl, rfl⟩, rfl, fun _ => rfl⟩

theorem latched_raise (c : FaultCause) (op : Word) : Latched c op s (s.raise c op) := ⟨rfl, rfl, rfl, rfl⟩

/-! The fault table -/

theorem faultIn_drw (x y : RegIdx) (n : Fin 16) :
    faultIn s (.drw x y n) = if 0 < n.val ∧ 4095 < s.i.toNat + n.val - 1 then some .memOutOfRange else none := rfl

theorem faultIn_ldB (x : RegIdx) :
    faultIn s (.ldB x) = if 0 < 3 ∧ 4095 < s.i.toNat + 3 - 1 then some .memOutOfRange else none := rfl

theorem faultIn_ldMemVx (x : RegIdx) : faultIn s (.ldMemVx x) =
    if 0 < x.val + 1 ∧ 4095 < s.i.toNat + (x.val + 1) - 1 then some .memOutOfRange else none := rfl

theorem faultIn_ldVxMem (x : RegIdx) : faultIn s (.ldVxMem x) =
    if 0 < x.val + 1 ∧ 4095 < s.i.toNat + (x.val + 1) - 1 then some .memOutOfRange else none := rfl

theorem faultIn_ret : faultIn s .ret = if s.sp.val = 0 then some .stackUnderflow else none := rfl

theorem faultIn_call (nnn : BitVec 12) :
    faultIn s (.call nnn) = if s.sp.val = 16 then some .stackOverflow else none := rfl

end Sys2Proof.Machine
end

