-- ==== Sys2Proof/Laws/PerInstr.lean ====
section
/-! SUPPORT. One lemma per instruction: its word is admitted by its own row of the opcode table (spec/30_encoding.md R84, R85:
"an opcode `w` is the row's instruction iff `w & mask = match`"). -/

namespace Sys2Proof.Laws.EncodesInRow

/-- The instruction's row is one of the table's, and its word, with any field values, is admitted by it. -/
def Statement (i : Instr) : Prop := i.row ∈ opcodeTable ∧ i.row.admits (encodeWord i) = true

/-- A word of format F_NNN under the mask F000. -/
theorem admits_nnn (f : BitVec 4) (p : Word) (nnn : BitVec 12) (h : p.toNat = f.toNat * 4096) :
    Row.admits ⟨0xF000, p⟩ (wordNnn f nnn) = true := by
  have := nnn.isLt
  rw [Row.admits, beq_iff_eq]
  apply BitVec.eq_of_toNat_eq
  refine (toNat_and_F000 _).trans ?_
  rw [toNat_wordNnn]; simp only [h]; omega

/-- A word of format F_XKK under the mask F000. -/
theorem admits_xkk (f : BitVec 4) (p : Word) (x : RegIdx) (kk : Byte) (h : p.toNat = f.toNat * 4096) :
    Row.admits ⟨0xF000, p⟩ (wordXkk f x kk) = true := by
  have := kk.isLt
  rw [Row.admits, beq_iff_eq]
  apply BitVec.eq_of_toNat_eq
  refine (toNat_and_F000 _).trans ?_
  rw [toNat_wordXkk]; simp only [h]; omega

/-- A word of format F_X under the mask F0FF. -/
theorem admits_x (f : BitVec 4) (p : Word) (x : RegIdx) (kk : Byte) (h : p.toNat = f.toNat * 4096 + kk.toNat) :
    Row.admits ⟨0xF0FF, p⟩ (wordXkk f x kk) = true := by
  have := kk.isLt
  rw [Row.admits, beq_iff_eq]
  apply BitVec.eq_of_toNat_eq
  refine (toNat_and_F0FF _).trans ?_
  rw [toNat_wordXkk]; simp only [h]; omega

/-- A word of format F_XYN under the mask F000. -/
theorem admits_xyn (f : BitVec 4) (p : Word) (x y : RegIdx) (n : Fin 16) (h : p.toNat = f.toNat * 4096) :
    Row.admits ⟨0xF000, p⟩ (wordXyn f x y n) = true := by
  rw [Row.admits, beq_iff_eq]
  apply BitVec.eq_of_toNat_eq
  refine (toNat_and_F000 _).trans ?_
  rw [toNat_wordXyn]; simp only [h]; omega

/-- A word of format F_XY under the mask F00F. -/
theorem admits_xy (f : BitVec 4) (p : Word) (x y : RegIdx) (n : Fin 16) (h : p.toNat = f.toNat * 4096 + n.val) :
    Row.admits ⟨0xF00F, p⟩ (wordXyn f x y n) = true := by
  rw [Row.admits, beq_iff_eq]
  apply BitVec.eq_of_toNat_eq
  refine (toNat_and_F00F _).trans ?_
  rw [toNat_wordXyn]; simp only [h]; omega

theorem row_mem (i : Instr) : i.row ∈ opcodeTable := by
  cases i <;> simp [Instr.row, opcodeTable]

theorem cls : Statement (.cls) :=
  ⟨row_mem _, by decide⟩
theorem ret : Statement (.ret) :=
  ⟨row_mem _, by decide⟩
theorem jp (nnn : BitVec 12) : Statement (.jp nnn) :=
  ⟨row_mem _, admits_nnn _ _ _ rfl⟩
theorem call (nnn : BitVec 12) : Statement (.call nnn) :=
  ⟨row_mem _, admits_nnn _ _ _ rfl⟩
theorem seImm (x : RegIdx) (kk : Byte) : Statement (.seImm x kk) :=
  ⟨row_mem _, admits_xkk _ _ _ _ rfl⟩
theorem sneImm (x : RegIdx) (kk : Byte) : Statement (.sneImm x kk) :=
  ⟨row_mem _, admits_xkk _ _ _ _ rfl⟩
theorem seReg (x y : RegIdx) : Statement (.seReg x y) :=
  ⟨row_mem _, admits_xy _ _ _ _ _ rfl⟩
theorem ldImm (x : RegIdx) (kk : Byte) : Statement (.ldImm x kk) :=
  ⟨row_mem _, admits_xkk _ _ _ _ rfl⟩
theorem addImm (x : RegIdx) (kk : Byte) : Statement (.addImm x kk) :=
  ⟨row_mem _, admits_xkk _ _ _ _ rfl⟩
theorem ldReg (x y : RegIdx) : Statement (.ldReg x y) :=
  ⟨row_mem _, admits_xy _ _ _ _ _ rfl⟩
theorem orReg (x y : RegIdx) : Statement (.orReg x y) :=
  ⟨row_mem _, admits_xy _ _ _ _ _ rfl⟩
theorem andReg (x y : RegIdx) : Statement (.andReg x y) :=
  ⟨row_mem _, admits_xy _ _ _ _ _ rfl⟩
theorem xorReg (x y : RegIdx) : Statement (.xorReg x y) :=
  ⟨row_mem _, admits_xy _ _ _ _ _ rfl⟩
theorem addReg (x y : RegIdx) : Statement (.addReg x y) :=
  ⟨row_mem _, admits_xy _ _ _ _ _ rfl⟩
theorem sub (x y : RegIdx) : Statement (.sub x y) :=
  ⟨row_mem _, admits_xy _ _ _ _ _ rfl⟩
theorem shr (x y : RegIdx) : Statement (.shr x y) :=
  ⟨row_mem _, admits_xy _ _ _ _ _ rfl⟩
theorem subn (x y : RegIdx) : Statement (.subn x y) :=
  ⟨row_mem _, admits_xy _ _ _ _ _ rfl⟩
theorem shl (x y : RegIdx) : Statement (.shl x y) :=
  ⟨row_mem _, admits_xy _ _ _ _ _ rfl⟩
theorem sneReg (x y : RegIdx) : Statement (.sneReg x y) :=
  ⟨row_mem _, admits_xy _ _ _ _ _ rfl⟩
theorem ldI (nnn : BitVec 12) : Statement (.ldI nnn) :=
  ⟨row_mem _, admits_nnn _ _ _ rfl⟩
theorem jpV0 (nnn : BitVec 12) : Statement (.jpV0 nnn) :=
  ⟨row_mem _, admits_nnn _ _ _ rfl⟩
theorem rnd (x : RegIdx) (kk : Byte) : Statement (.rnd x kk) :=
  ⟨row_mem _, admits_xkk _ _ _ _ rfl⟩
theorem drw (x y : RegIdx) (n : Fin 16) : Statement (.drw x y n) :=
  ⟨row_mem _, admits_xyn _ _ _ _ _ rfl⟩
theorem skp (x : RegIdx) : Statement (.skp x) :=
  ⟨row_mem _, admits_x _ _ _ _ rfl⟩
theorem sknp (x : RegIdx) : Statement (.sknp x) :=
  ⟨row_mem _, admits_x _ _ _ _ rfl⟩
theorem ldVxDt (x : RegIdx) : Statement (.ldVxDt x) :=
  ⟨row_mem _, admits_x _ _ _ _ rfl⟩
theorem ldVxK (x : RegIdx) : Statement (.ldVxK x) :=
  ⟨row_mem _, admits_x _ _ _ _ rfl⟩
theorem ldDtVx (x : RegIdx) : Statement (.ldDtVx x) :=
  ⟨row_mem _, admits_x _ _ _ _ rfl⟩
theorem ldStVx (x : RegIdx) : Statement (.ldStVx x) :=
  ⟨row_mem _, admits_x _ _ _ _ rfl⟩
theorem addI (x : RegIdx) : Statement (.addI x) :=
  ⟨row_mem _, admits_x _ _ _ _ rfl⟩
theorem ldF (x : RegIdx) : Statement (.ldF x) :=
  ⟨row_mem _, admits_x _ _ _ _ rfl⟩
theorem ldB (x : RegIdx) : Statement (.ldB x) :=
  ⟨row_mem _, admits_x _ _ _ _ rfl⟩
theorem ldMemVx (x : RegIdx) : Statement (.ldMemVx x) :=
  ⟨row_mem _, admits_x _ _ _ _ rfl⟩
theorem ldVxMem (x : RegIdx) : Statement (.ldVxMem x) :=
  ⟨row_mem _, admits_x _ _ _ _ rfl⟩

end Sys2Proof.Laws.EncodesInRow
end

