-- ==== Sys2Proof/Laws/Step.lean ====
section
/-! SUPPORT. What a step can do: one of four things, and nothing else. -/

namespace Sys2Proof.Machine

variable (s : State)

/-- Halted: nothing but the port (spec/40_step_cycle.md R101). -/
theorem step_halted (h : s.halt = true) : step s = .next s.begin := by
  simp [step, h]

/-- The fetch reaches past 4095 (R102). -/
theorem step_unfetchable (h1 : s.halt = false) (h2 : s.fetchable = false) :
    step s = .next (s.begin.raise .fetchOutOfRange 0x0000) := by
  simp [step, h1, h2]

/-- The opcode matches no pattern (R106). -/
theorem step_unknown (h1 : s.halt = false) (h2 : s.fetchable = true) (h3 : decodeWord s.fetchWord = none) :
    step s = .next (s.begin.enter.reportUnknown s.fetchWord) := by
  simp [step, h1, h2, h3]

/-- The opcode is an instruction (R106). -/
theorem step_decoded (i : Instr) (h1 : s.halt = false) (h2 : s.fetchable = true) (h3 : decodeWord s.fetchWord = some i) :
    step s = exec i s.begin.enter := by
  simp [step, h1, h2, h3]

/-- The four cases of a step. -/
theorem step_cases :
    (s.halt = true ∧ step s = .next s.begin) ∨
    (s.halt = false ∧ s.fetchable = false ∧ step s = .next (s.begin.raise .fetchOutOfRange 0x0000)) ∨
    (s.halt = false ∧ s.fetchable = true ∧ decodeWord s.fetchWord = none ∧
      step s = .next (s.begin.enter.reportUnknown s.fetchWord)) ∨
    (∃ i, s.halt = false ∧ s.fetchable = true ∧ decodeWord s.fetchWord = some i ∧ step s = exec i s.begin.enter) := by
  cases h1 : s.halt
  · cases h2 : s.fetchable
    · exact .inr (.inl ⟨rfl, rfl, step_unfetchable s h1 h2⟩)
    · cases h3 : decodeWord s.fetchWord
      · exact .inr (.inr (.inl ⟨rfl, rfl, rfl, step_unknown s h1 h2 h3⟩))
      · exact .inr (.inr (.inr ⟨_, rfl, rfl, rfl, step_decoded s _ h1 h2 h3⟩))
  · exact .inl ⟨rfl, step_halted s h1⟩

/-- The PC an instruction executes with: the fetch address plus 2, no wrap (R103). -/
theorem toNat_pc_enter (h : s.fetchable = true) : s.begin.enter.pc.toNat = s.pc.toNat + 2 :=
  toNat_advance s h

end Sys2Proof.Machine
end

