-- ==== Sys2Proof/Tests/Slice0.lean ====
section
/-! SUPPORT. Tests: the WellFormed smoke, every constructor's decoding from a word written out from spec/30_encoding.md R85,
single-step vectors of spec/95_test_vectors.md (each names its vector), and a witness for the hypotheses of each statement. -/

namespace Sys2Proof.Tests

open Sys2Proof.Machine

/-- The state after one step. -/
def run (s : State) : State :=
  match step s with
  | .next t => t
  | .fault _ => s
  | .refused _ => s

/-- The reset state with an opcode at PC. -/
def at0 (w : Word) : State := State.reset.placeWord w

/-- A picture with the given pixels on. -/
def lit (ps : List (Fin 64 × Fin 32)) : Framebuffer :=
  ps.foldl (fun f p => Framebuffer.setPixel f p.1 p.2 true) Framebuffer.blank

/-! ## WellFormed: a word that is ill-formed in each family of 30_encoding.md R87 is refused (vectors Q1 to Q15) -/

theorem test_wellFormed_refuses_family0_zero : wordWellFormed 0x0000 = false ∧ decodeWord 0x0000 = none := by decide
theorem test_wellFormed_refuses_family0_0nnn : wordWellFormed 0x0123 = false ∧ decodeWord 0x0123 = none := by decide
theorem test_wellFormed_refuses_family0_00E1 : wordWellFormed 0x00E1 = false ∧ decodeWord 0x00E1 = none := by decide
theorem test_wellFormed_refuses_family5 : wordWellFormed 0x5001 = false ∧ decodeWord 0x5001 = none := by decide
theorem test_wellFormed_refuses_family8 : wordWellFormed 0x8008 = false ∧ decodeWord 0x8008 = none := by decide
theorem test_wellFormed_refuses_family9 : wordWellFormed 0x9001 = false ∧ decodeWord 0x9001 = none := by decide
theorem test_wellFormed_refuses_familyE : wordWellFormed 0xE09F = false ∧ decodeWord 0xE09F = none := by decide
theorem test_wellFormed_refuses_familyF : wordWellFormed 0xF056 = false ∧ decodeWord 0xF056 = none := by decide
theorem test_wellFormed_admits : wordWellFormed 0x00E0 = true ∧ wordWellFormed 0xDFF1 = true := by decide
/-- A bound both sides of which are tried (vectors L2, L3). -/
theorem test_image_bound : imageWellFormed (List.replicate 3584 0xAA) = true ∧ imageWellFormed (List.replicate 3585 0xAA) = false := by
  simp only [imageWellFormed, List.length_replicate]; decide

/-! ## Decoding: one word per constructor, written out from its pattern (30_encoding.md R85), with unlike field values -/

theorem test_decode_cls : decodeWord 0x00E0 = some (.cls) ∧ encodeWord (.cls) = 0x00E0 := by decide
theorem test_decode_ret : decodeWord 0x00EE = some (.ret) ∧ encodeWord (.ret) = 0x00EE := by decide
theorem test_decode_jp : decodeWord 0x1204 = some (.jp 0x204) ∧ encodeWord (.jp 0x204) = 0x1204 := by decide
theorem test_decode_call : decodeWord 0x2ABC = some (.call 0xABC) ∧ encodeWord (.call 0xABC) = 0x2ABC := by decide
theorem test_decode_seImm : decodeWord 0x31A5 = some (.seImm 1 0xA5) ∧ encodeWord (.seImm 1 0xA5) = 0x31A5 := by decide
theorem test_decode_sneImm : decodeWord 0x4211 = some (.sneImm 2 0x11) ∧ encodeWord (.sneImm 2 0x11) = 0x4211 := by decide
theorem test_decode_seReg : decodeWord 0x5340 = some (.seReg 3 4) ∧ encodeWord (.seReg 3 4) = 0x5340 := by decide
theorem test_decode_ldImm : decodeWord 0x6A2F = some (.ldImm 10 0x2F) ∧ encodeWord (.ldImm 10 0x2F) = 0x6A2F := by decide
theorem test_decode_addImm : decodeWord 0x71FF = some (.addImm 1 0xFF) ∧ encodeWord (.addImm 1 0xFF) = 0x71FF := by decide
theorem test_decode_ldReg : decodeWord 0x8EF0 = some (.ldReg 14 15) ∧ encodeWord (.ldReg 14 15) = 0x8EF0 := by decide
theorem test_decode_orReg : decodeWord 0x8121 = some (.orReg 1 2) ∧ encodeWord (.orReg 1 2) = 0x8121 := by decide
theorem test_decode_andReg : decodeWord 0x8122 = some (.andReg 1 2) ∧ encodeWord (.andReg 1 2) = 0x8122 := by decide
theorem test_decode_xorReg : decodeWord 0x8123 = some (.xorReg 1 2) ∧ encodeWord (.xorReg 1 2) = 0x8123 := by decide
theorem test_decode_addReg : decodeWord 0x8F14 = some (.addReg 15 1) ∧ encodeWord (.addReg 15 1) = 0x8F14 := by decide
theorem test_decode_sub : decodeWord 0x8015 = some (.sub 0 1) ∧ encodeWord (.sub 0 1) = 0x8015 := by decide
theorem test_decode_shr : decodeWord 0x8346 = some (.shr 3 4) ∧ encodeWord (.shr 3 4) = 0x8346 := by decide
theorem test_decode_subn : decodeWord 0x8017 = some (.subn 0 1) ∧ encodeWord (.subn 0 1) = 0x8017 := by decide
theorem test_decode_shl : decodeWord 0x834E = some (.shl 3 4) ∧ encodeWord (.shl 3 4) = 0x834E := by decide
theorem test_decode_sneReg : decodeWord 0x9340 = some (.sneReg 3 4) ∧ encodeWord (.sneReg 3 4) = 0x9340 := by decide
theorem test_decode_ldI : decodeWord 0xA20E = some (.ldI 0x20E) ∧ encodeWord (.ldI 0x20E) = 0xA20E := by decide
theorem test_decode_jpV0 : decodeWord 0xB300 = some (.jpV0 0x300) ∧ encodeWord (.jpV0 0x300) = 0xB300 := by decide
theorem test_decode_rnd : decodeWord 0xC30F = some (.rnd 3 0x0F) ∧ encodeWord (.rnd 3 0x0F) = 0xC30F := by decide
theorem test_decode_drw : decodeWord 0xD127 = some (.drw 1 2 7) ∧ encodeWord (.drw 1 2 7) = 0xD127 := by decide
theorem test_decode_skp : decodeWord 0xE59E = some (.skp 5) ∧ encodeWord (.skp 5) = 0xE59E := by decide
theorem test_decode_sknp : decodeWord 0xE5A1 = some (.sknp 5) ∧ encodeWord (.sknp 5) = 0xE5A1 := by decide
theorem test_decode_ldVxDt : decodeWord 0xF207 = some (.ldVxDt 2) ∧ encodeWord (.ldVxDt 2) = 0xF207 := by decide
theorem test_decode_ldVxK : decodeWord 0xF10A = some (.ldVxK 1) ∧ encodeWord (.ldVxK 1) = 0xF10A := by decide
theorem test_decode_ldDtVx : decodeWord 0xF015 = some (.ldDtVx 0) ∧ encodeWord (.ldDtVx 0) = 0xF015 := by decide
theorem test_decode_ldStVx : decodeWord 0xF318 = some (.ldStVx 3) ∧ encodeWord (.ldStVx 3) = 0xF318 := by decide
theorem test_decode_addI : decodeWord 0xF21E = some (.addI 2) ∧ encodeWord (.addI 2) = 0xF21E := by decide
theorem test_decode_ldF : decodeWord 0xFA29 = some (.ldF 10) ∧ encodeWord (.ldF 10) = 0xFA29 := by decide
theorem test_decode_ldB : decodeWord 0xF033 = some (.ldB 0) ∧ encodeWord (.ldB 0) = 0xF033 := by decide
theorem test_decode_ldMemVx : decodeWord 0xF255 = some (.ldMemVx 2) ∧ encodeWord (.ldMemVx 2) = 0xF255 := by decide
theorem test_decode_ldVxMem : decodeWord 0xF265 = some (.ldVxMem 2) ∧ encodeWord (.ldVxMem 2) = 0xF265 := by decide
theorem test_decode_bytes : decode [0x6A, 0x2F, 0x00] = .ok (.ldImm 10 0x2F, [0x00]) := rfl
theorem test_decode_truncated : decode [0x6A] = .error .truncated := rfl
theorem test_decodeTableWord : decodeTableWord 16 0x8F15 = some (.sub 15 1) ∧ decodeTableWord 16 0x0000 = none := by decide

/-! ## Single-step vectors (spec/95_test_vectors.md part 2) -/

/-- Vector S1. -/
theorem test_cls_S1 :
    let t := run (({ at0 0x00E0 with fb := lit [(0, 0), (63, 31)] } : State).setReg 15 1)
    Framebuffer.pixel t.fb 0 0 = false ∧ Framebuffer.pixel t.fb 63 31 = false ∧ t.reg 15 = 1 ∧ t.pc = 0x202 := by decide
/-- Vector F1. -/
theorem test_ret_F1 :
    let t := run ({ (State.reset.setPc 0x212).placeWord 0x00EE with sp := 1, stack := State.reset.stack.set 0 0x206 } : State)
    t.pc = 0x206 ∧ t.sp = 0 ∧ t.stack[0] = 0x206 := by decide
/-- Vector F2. -/
theorem test_ret_F2 :
    let t := run ((State.reset.setPc 0x212).placeWord 0x00EE)
    t.halt = true ∧ t.faultCause.code = 3 ∧ t.faultOpcode = 0x00EE ∧ t.pc = 0x214 ∧ t.sp = 0 ∧ t.port.event = .fault .stackUnderflow 0x00EE 0x214 := by decide
/-- Vector F5. -/
theorem test_jp_F5 :
    let t := run (at0 0x1FFF)
    t.pc = 0xFFF ∧ t.halt = false := by decide
/-- Vector F8. -/
theorem test_call_F8 :
    let t := run ({ (State.reset.setPc 0x300).placeWord 0x2ABC with sp := 15 } : State)
    t.pc = 0xABC ∧ t.sp = 16 ∧ t.stack[15] = 0x302 := by decide
/-- Vector F9. -/
theorem test_call_F9 :
    let t := run ({ (State.reset.setPc 0x300).placeWord 0x2ABC with sp := 16 } : State)
    t.pc = 0x302 ∧ t.sp = 16 ∧ t.stack[15] = 0 ∧ t.port.event = .fault .stackOverflow 0x2ABC 0x302 := by decide
/-- Vector F10. -/
theorem test_seImm_F10 :
    let t := run ((State.reset.setPc 0x208).placeWord 0x3100)
    t.pc = 0x20C := by decide
/-- Vector F11. -/
theorem test_seImm_F11 :
    let t := run (((State.reset.setPc 0x208).placeWord 0x3100).setReg 1 4)
    t.pc = 0x20A := by decide
/-- Vector F13. -/
theorem test_sneImm_F13 :
    let t := run (((State.reset.setPc 0x300).placeWord 0x4211).setReg 2 0x10)
    t.pc = 0x304 := by decide
/-- Vector F14. -/
theorem test_sneImm_F14 :
    let t := run (((State.reset.setPc 0x300).placeWord 0x4210).setReg 2 0x10)
    t.pc = 0x302 := by decide
/-- Vector F16. -/
theorem test_seReg_F16 :
    let t := run ((((State.reset.setPc 0x220).placeWord 0x5340).setReg 3 7).setReg 4 8)
    t.pc = 0x222 := by decide
/-- Vector F17. -/
theorem test_seReg_F17 :
    let t := run (((State.reset.setPc 0x220).placeWord 0x5330).setReg 3 7)
    t.pc = 0x224 := by decide
/-- Vector F19. -/
theorem test_sneReg_F19 :
    let t := run ((((State.reset.setPc 0x220).placeWord 0x9340).setReg 3 7).setReg 4 8)
    t.pc = 0x224 := by decide
/-- Vector F24. -/
theorem test_jpV0_F24 :
    let t := run ((at0 0xBFFF).setReg 0 0xFF)
    t.pc = 0x10FE ∧ (run t).port.event = .fault .fetchOutOfRange 0 0x10FE := by decide
/-- Vector A2. -/
theorem test_ldImm_A2 :
    let t := run (at0 0x6F55)
    t.reg 15 = 0x55 ∧ t.pc = 0x202 := by decide
/-- Vector A4. -/
theorem test_addImm_A4 :
    let t := run ((at0 0x7102).setReg 1 0xFF)
    t.reg 1 = 0x01 ∧ t.reg 15 = 0 := by decide
/-- Vector A7. -/
theorem test_ldReg_A7 :
    let t := run ((at0 0x8120).setReg 2 0x33)
    t.reg 1 = 0x33 ∧ t.reg 2 = 0x33 := by decide
/-- Vector A10. -/
theorem test_orReg_A10 :
    let t := run ((((at0 0x8121).setReg 1 0xF0).setReg 2 0x0F).setReg 15 1)
    t.reg 1 = 0xFF ∧ t.reg 15 = 1 := by decide
/-- Vector A11. -/
theorem test_andReg_A11 :
    let t := run ((((at0 0x8122).setReg 1 0xF3).setReg 2 0x3F).setReg 15 1)
    t.reg 1 = 0x33 ∧ t.reg 15 = 1 := by decide
/-- Vector A12. -/
theorem test_xorReg_A12 :
    let t := run ((((at0 0x8123).setReg 1 0xFF).setReg 2 0x0F).setReg 15 1)
    t.reg 1 = 0xF0 ∧ t.reg 15 = 1 := by decide
/-- Vector A14. -/
theorem test_addReg_A14 :
    let t := run (((at0 0x8014).setReg 0 0xFF).setReg 1 1)
    t.reg 0 = 0 ∧ t.reg 15 = 1 := by decide
/-- Vector T-ALU-F 1. -/
theorem test_addReg_TALUF1 :
    let t := run (((at0 0x8F14).setReg 15 3).setReg 1 0xFE)
    t.reg 15 = 1 := by decide
/-- Vector A20. -/
theorem test_sub_A20 :
    let t := run (((at0 0x8015).setReg 0 5).setReg 1 7)
    t.reg 0 = 0xFE ∧ t.reg 15 = 0 := by decide
/-- Vector T-ALU-F 10. -/
theorem test_sub_TALUF10 :
    let t := run (((at0 0x80F5).setReg 0 0x10).setReg 15 1)
    t.reg 0 = 0x0F ∧ t.reg 15 = 1 := by decide
/-- Vector A28. -/
theorem test_shr_A28 :
    let t := run (((at0 0x8346).setReg 3 5).setReg 4 0xFF)
    t.reg 3 = 2 ∧ t.reg 4 = 0xFF ∧ t.reg 15 = 1 := by decide
/-- Vector T-ALU-F 6. -/
theorem test_shr_TALUF6 :
    let t := run ((at0 0x8F06).setReg 15 7)
    t.reg 15 = 3 := by decide
/-- Vector A33. -/
theorem test_subn_A33 :
    let t := run (((at0 0x8017).setReg 0 7).setReg 1 5)
    t.reg 0 = 0xFE ∧ t.reg 15 = 0 := by decide
/-- Vector T-ALU-F 11. -/
theorem test_subn_TALUF11 :
    let t := run (((at0 0x80F7).setReg 0 0x10).setReg 15 1)
    t.reg 0 = 0xF1 ∧ t.reg 15 = 0 := by decide
/-- Vector A36. -/
theorem test_shl_A36 :
    let t := run ((at0 0x830E).setReg 3 0x81)
    t.reg 3 = 2 ∧ t.reg 15 = 1 := by decide
/-- Vector T-ALU-F 8. -/
theorem test_shl_TALUF8 :
    let t := run ((at0 0x8F0E).setReg 15 0x81)
    t.reg 15 = 2 := by decide
/-- Vector M2. -/
theorem test_ldI_M2 :
    let t := run (at0 0xAFFF)
    t.i = 0xFFF := by decide
/-- Vector A42. -/
theorem test_rnd_A42 :
    let t := run ((at0 0xC30F).present 0 0xA7)
    t.reg 3 = 7 := by decide
/-- Vector A43. -/
theorem test_rnd_A43 :
    let t := run (((at0 0xC300).setReg 3 9).present 0 0xFF)
    t.reg 3 = 0 := by decide
/-- Vector S6. -/
theorem test_drw_S6 :
    let t := run (((((at0 0xD011).setI 0x300).storeBytes 0x300 [0x81]).setReg 0 0xFF).setReg 1 0xFF)
    t.fb = lit [(63, 31), (6, 31)] ∧ t.reg 15 = 0 := by decide
/-- Vector S4. -/
theorem test_drw_S4 :
    let t := run ({ ((at0 0xD011).setI 0x300).storeBytes 0x300 [0xC0] with fb := lit [(1, 0)] } : State)
    t.fb = lit [(0, 0)] ∧ t.reg 15 = 1 := by decide
/-- Vector K5. -/
theorem test_skp_K5 :
    let t := run ((((State.reset.setPc 0x230).placeWord 0xE59E).setReg 5 0x1A).present 0x0400 0)
    t.pc = 0x234 := by decide
/-- Vector K2. -/
theorem test_skp_K2 :
    let t := run ((((State.reset.setPc 0x230).placeWord 0xE59E).setReg 5 0x0A).present 0xFBFF 0)
    t.pc = 0x232 := by decide
/-- Vector K3. -/
theorem test_sknp_K3 :
    let t := run ((((State.reset.setPc 0x230).placeWord 0xE5A1).setReg 5 0x0A).present 0 0)
    t.pc = 0x234 := by decide
/-- Vector K6. -/
theorem test_sknp_K6 :
    let t := run ((((State.reset.setPc 0x230).placeWord 0xE5A1).setReg 5 0xFA).present 0x0400 0)
    t.pc = 0x232 := by decide
/-- Vector T1. -/
theorem test_ldVxDt_T1 :
    let t := run ((at0 0xF207).setDt 3)
    t.reg 2 = 2 ∧ t.dt = 2 := by decide
/-- Vector K7. -/
theorem test_ldVxK_K7 :
    let t := run (((((State.reset.setPc 0x204).placeWord 0xF10A).setDt 3).setSt 1).present 0 0)
    t.pc = 0x204 ∧ t.dt = 2 ∧ t.st = 0 ∧ t.reg 1 = 0 := by decide
/-- Vector K8. -/
theorem test_ldVxK_K8 :
    let t := run (((State.reset.setPc 0x204).placeWord 0xF10A).present 0x0280 0)
    t.reg 1 = 7 ∧ t.pc = 0x206 := by decide
/-- Vector T5. -/
theorem test_ldDtVx_T5 :
    let t := run (((at0 0xF015).setReg 0 5).setDt 9)
    t.dt = 5 := by decide
/-- Vector T8. -/
theorem test_ldStVx_T8 :
    let t := run (((at0 0xF318).setReg 3 0xFF).setSt 1)
    t.st = 255 ∧ t.soundActive = true := by decide
/-- Vector M4. -/
theorem test_addI_M4 :
    let t := run (((at0 0xF21E).setI 0xFFFF).setReg 2 1)
    t.i = 0 ∧ t.reg 15 = 0 := by decide
/-- Vector M11. -/
theorem test_ldF_M11 :
    let t := run ((at0 0xF029).setReg 0 0xFF)
    t.i = 0x54B := by decide
/-- Vector M12. -/
theorem test_ldB_M12 :
    let t := run (((at0 0xF033).setI 0x300).setReg 0 0x9C)
    t.readByte 0x300 = 1 ∧ t.readByte 0x301 = 5 ∧ t.readByte 0x302 = 6 ∧ t.i = 0x300 := by decide
/-- Vector M18. -/
theorem test_ldB_M18 :
    let t := run (((at0 0xF033).setI 0xFFE).setReg 0 0x7B)
    t.port.event = .fault .memOutOfRange 0xF033 0x202 ∧ t.faultCause.code = 4 ∧ t.readByte 0xFFE = 0 := by decide
/-- Vector M19. -/
theorem test_ldMemVx_M19 :
    let t := run ((((((at0 0xF255).setI 0x400).setReg 0 0x11).setReg 1 0x22).setReg 2 0x33).setReg 3 0x44)
    t.readByte 0x400 = 0x11 ∧ t.readByte 0x402 = 0x33 ∧ t.readByte 0x403 = 0 ∧ t.i = 0x400 := by decide
/-- Vector M21. -/
theorem test_ldMemVx_M21 :
    let t := run ((((at0 0xF155).setI 0xFFF).setReg 0 0xAB).setReg 1 0xCD)
    t.halt = true ∧ t.readByte 0xFFF = 0 := by decide
/-- Vector M28. -/
theorem test_ldVxMem_M28 :
    let t := run ((at0 0xFF65).setI 0x50)
    t.reg 0 = 0xF0 ∧ t.reg 5 = 0x20 ∧ t.reg 12 = 0xF0 ∧ t.reg 13 = 0x80 := by decide
/-- Vector M26. -/
theorem test_ldVxMem_M26 :
    let t := run ((((((at0 0xF165).setI 0xFFF).storeBytes 0xFFF [0x5A]).setReg 0 1).setReg 1 2))
    t.halt = true ∧ t.reg 0 = 1 ∧ t.reg 1 = 2 := by decide
/-- Vector Q6. -/
theorem test_unknown_Q6 :
    let t := run ((at0 0x5001).setDt 2)
    t.pc = 0x202 ∧ t.dt = 1 ∧ t.halt = false ∧ t.port.event = .unknown 0x5001 0x202 := by decide
/-- Vector X1. -/
theorem test_fetch_X1 :
    let t := run ((State.reset.setPc 0x201).placeWord 0x6A2F)
    t.reg 10 = 0x2F ∧ t.pc = 0x203 := by decide
/-- Vector X3. -/
theorem test_fetch_X3 :
    let t := run ((State.reset.setPc 0xFFF).setDt 2)
    t.port.event = .fault .fetchOutOfRange 0 0xFFF ∧ t.pc = 0xFFF ∧ t.dt = 2 := by decide
/-- Vector X7. -/
theorem test_fetch_X7 :
    let t := run ((State.reset.setPc 0xFFE).placeWord 0x3000)
    t.pc = 0x1002 ∧ t.halt = false := by decide
/-- Vector X6. -/
theorem test_halted_X6 :
    let t := run (run ((State.reset.setPc 0x1000).setDt 2))
    t.port.event = .none ∧ t.pc = 0x1000 ∧ t.dt = 2 ∧ t.faultCause.code = 1 := by decide
/-- Vector L9. -/
theorem test_reset_step_L9 :
    let t := run (State.reset)
    t.port.event = .unknown 0 0x202 ∧ t.pc = 0x202 := by decide

/-! ## Host commands (vectors L1, L7) and memory -/

/-- Vectors L1, L7. -/
theorem test_load :
    let s : State := { State.reset with halt := true }
    let r := s.loadProgram [0x12, 0x00]
    r.1 = .ok ∧ r.2.readByte 0x200 = 0x12 ∧ r.2.readByte 0x201 = 0 ∧ r.2.halt = true ∧ r.2.mem = [(0x200, 0x12)] := by decide

/-- Writing what an unlisted address reads as removes the cell: the font's first byte is 0xF0 (10_state.md R33). -/
theorem test_memory_canonical :
    ((Memory.write [] 0x050 0x11).write 0x050 0xF0) = [] ∧ (Memory.write [] 0x09F 0x80) = [] ∧
    Memory.read [] 0x09F = 0x80 ∧ Memory.read [] 0x0A0 = 0 ∧ Memory.read [] 0x04F = 0 := by decide

theorem test_memory_not_wf : ¬Memory.wf [(5, 1), (5, 2)] ∧ ¬Memory.wf [(4096, 1)] ∧ ¬Memory.wf [(0x050, 0xF0)] := by decide

/-! ## Witnesses: for each statement with hypotheses, a state and operands that meet them, one per clause, at a boundary of
the clause's range. A statement not named here has none. -/

/-- The state `exec` answers. -/
def after (i : Instr) (s : State) : State :=
  match exec i s with
  | .next t => t
  | .fault _ => s
  | .refused _ => s

theorem witness_AddRegSumAndCarry : (14 : RegIdx) ≠ vf := by decide
theorem witness_SubtractionFlagThenResult : (0 : RegIdx) ≠ vf := by decide
theorem witness_ShiftsCaptureLostBit : (14 : RegIdx) ≠ vf := by decide
theorem witness_VfAsOperandTable : (14 : RegIdx) ≠ vf ∧ (0 : RegIdx) ≠ vf := by decide
theorem witness_RndAloneConsumesRandomByte : ∀ x kk, Instr.jpV0 0xFFF ≠ .rnd x kk := by intro _ _ h; cases h
theorem witness_CallPushesOrOverflows_push : ({ State.reset with sp := 15 } : State).sp.val < 16 := by decide
theorem witness_CallPushesOrOverflows_full : ({ State.reset with sp := 16 } : State).sp.val = 16 := by decide
theorem witness_RetPopsOrUnderflows_pop : 0 < ({ State.reset with sp := 1 } : State).sp.val := by decide
theorem witness_RetPopsOrUnderflows_empty : State.reset.sp.val = 0 := by decide
theorem witness_RetPopsOrUnderflows_room : ({ State.reset with sp := 15 } : State).sp.val < 16 := by decide
/-- A call to the last address a return can be fetched from. -/
theorem witness_CallThenRetComesBack :
    let s : State := { (at0 0x2FFE).storeBytes 0xFFE [0x00, 0xEE] with sp := 15 }
    s.halt = false ∧ s.fetchable = true ∧ decodeWord s.fetchWord = some (.call 0xFFE) ∧ s.sp.val < 16 ∧
    (0xFFE : BitVec 12).toNat ≤ 0xFFE ∧ s.readByte (0xFFE : BitVec 12).toNat = 0x00 ∧
    s.readByte ((0xFFE : BitVec 12).toNat + 1) = 0xEE := by decide
theorem witness_LdBStoresDecimalDigits_last : (State.reset.setI 0xFFD).i.toNat + 2 ≤ 4095 := by decide
theorem witness_LdBStoresDecimalDigits_over : 4095 < (State.reset.setI 0xFFE).i.toNat + 2 := by decide
theorem witness_LdMemVxStoresRegisters_last : (State.reset.setI 0xFF0).i.toNat + (15 : RegIdx).val ≤ 4095 := by decide
theorem witness_LdMemVxStoresRegisters_over : 4095 < (State.reset.setI 0xFF1).i.toNat + (15 : RegIdx).val := by decide
theorem witness_LdVxMemLoadsRegisters_last : (State.reset.setI 0xFFF).i.toNat + (0 : RegIdx).val ≤ 4095 := by decide
theorem witness_LdVxMemLoadsRegisters_over : 4095 < (State.reset.setI 0x1000).i.toNat + (0 : RegIdx).val := by decide
/-- The registers are changed between the store and the load. -/
theorem witness_LdVxMemLoadsRegisters_roundTrip :
    let s := (State.reset.setI 0xFF0).setReg 3 0x7E
    let t := after (.ldMemVx 15) s
    let u := t.setReg 3 0x01
    s.i.toNat + (15 : RegIdx).val ≤ 4095 ∧ exec (.ldMemVx 15) s = .next t ∧ u.i = t.i ∧ SameMemory t u :=
  ⟨by decide, rfl, rfl, fun _ => rfl⟩
/-- The last two bytes of memory. -/
theorem witness_StoresAreFetchedAtOnce :
    (State.reset.setI 0xFFE).i.toNat + (1 : RegIdx).val ≤ 4095 ∧ (0 : RegIdx).val + 1 ≤ (1 : RegIdx).val ∧
    (0xFFE : Word).toNat = (State.reset.setI 0xFFE).i.toNat + (0 : RegIdx).val := by decide
theorem witness_DrwXorsSpriteIntoPixels_last :
    ¬(0 < (15 : Fin 16).val ∧ 4095 < (State.reset.setI 0xFF1).i.toNat + (15 : Fin 16).val - 1) := by decide
/-- With no rows nothing is checked. -/
theorem witness_DrwXorsSpriteIntoPixels_empty :
    ¬(0 < (0 : Fin 16).val ∧ 4095 < (State.reset.setI 0xFFFF).i.toNat + (0 : Fin 16).val - 1) := by decide
theorem witness_DrwXorsSpriteIntoPixels_over :
    0 < (15 : Fin 16).val ∧ 4095 < (State.reset.setI 0xFF2).i.toNat + (15 : Fin 16).val - 1 := by decide
/-- A glyph of the font on a clear screen, drawn once; then drawn again with another PC. -/
theorem witness_DrwTwiceRestoresPicture :
    let s := State.reset.setI 0x050
    let t := after (.drw 0 1 5) s
    let u := t.setPc 0x300
    ¬(0 < (5 : Fin 16).val ∧ 4095 < s.i.toNat + (5 : Fin 16).val - 1) ∧ exec (.drw 0 1 5) s = .next t ∧ u.fb = t.fb ∧
    u.i = s.i ∧ SameMemory s u ∧ u.reg 0 = s.reg 0 ∧ u.reg 1 = s.reg 1 ∧
    (∀ xx yy, Framebuffer.pixel s.fb xx yy = false) ∧ ∃ xx yy, Framebuffer.pixel t.fb xx yy = true := by
  refine ⟨by decide, rfl, rfl, rfl, fun _ => rfl, by decide, by decide, by decide, 0, 0, by decide⟩
/-- Key 15 alone. -/
theorem witness_KeyWaitTakesLeastKey_down :
    let s := State.reset.withKey 0x8000
    (15 : Nat) < 16 ∧ s.port.key.getLsbD 15 = true ∧ ∀ j < 15, s.port.key.getLsbD j = false := by decide
theorem witness_KeyWaitTakesLeastKey_none : ∀ k < 16, (State.reset.withKey 0).port.key.getLsbD k = false := by decide
theorem witness_KeyPollStepHoldsPc_none :
    let s := (at0 0xFF0A).present 0x0000 0x00
    s.halt = false ∧ s.fetchable = true ∧ decodeWord s.fetchWord = some (.ldVxK 15) ∧ s.port.next.key = 0 := by decide
theorem witness_KeyPollStepHoldsPc_down :
    let s := (at0 0xF00A).present 0x0001 0x00
    s.halt = false ∧ s.fetchable = true ∧ decodeWord s.fetchWord = some (.ldVxK 0) ∧ s.port.next.key ≠ 0 := by decide
theorem witness_TimerMovesFollowTick :
    (at0 0xFF07).halt = false ∧ (at0 0xFF07).fetchable = true ∧ decodeWord (at0 0xFF07).fetchWord = some (.ldVxDt 15) ∧
    decodeWord (at0 0xF015).fetchWord = some (.ldDtVx 0) ∧ decodeWord (at0 0xF018).fetchWord = some (.ldStVx 0) ∧
    (at0 0xF015).halt = false ∧ (at0 0xF015).fetchable = true ∧ (at0 0xF018).halt = false ∧
    (at0 0xF018).fetchable = true := by decide
/-- The last address that can be fetched from, an unknown opcode. -/
theorem witness_TimersTickOncePerStep :
    let s := State.reset.setPc 0xFFE
    s.halt = false ∧ s.fetchable = true ∧ (∀ x, decodeWord s.fetchWord ≠ some (.ldDtVx x)) ∧
    ∀ x, decodeWord s.fetchWord ≠ some (.ldStVx x) := by decide
theorem witness_StepRunsDecodedInstruction :
    let s := (State.reset.setPc 0xFFE).placeWord 0xDFFF
    s.halt = false ∧ s.fetchable = true ∧ decodeWord s.fetchWord = some (.drw 15 15 15) := by decide
theorem witness_UnknownOpcodeIsReported :
    let s := (State.reset.setPc 0xFFE).placeWord 0x9FF1
    s.halt = false ∧ s.fetchable = true ∧ wordWellFormed s.fetchWord = false := by decide
theorem witness_FetchPastEndFaults :
    (State.reset.setPc 0xFFF).halt = false ∧ 4095 < (State.reset.setPc 0xFFF).pc.toNat + 1 := by decide
theorem witness_HaltedStepChangesNothing : ({ State.reset with halt := true } : State).halt = true := by decide
/-- Both cases of the fault table, at their boundary. -/
theorem witness_FaultEntryIsPrecise :
    faultIn (State.reset.setI 0xFFD) (.ldB 0) = none ∧ faultIn (State.reset.setI 0xFFE) (.ldB 0) = some .memOutOfRange ∧
    faultIn (State.reset.setI 0xFFFF) (.drw 0 0 0) = none := by decide
theorem witness_OnlyResetLeavesHalt : (run (State.reset.setPc 0xFFF)).halt = true := by decide
theorem witness_PcMovesByTheTable :
    let s := (State.reset.setPc 0xFFE).placeWord 0x3000
    s.halt = false ∧ s.fetchable = true ∧ decodeWord s.fetchWord = some (.seImm 0 0) := by decide
/-- A state that is not reset, with a store under way at the end of memory. -/
theorem witness_StepKeepsMemoryCanonical :
    let s := ((at0 0xFF55).setI 0xFF0).setReg 9 0x44
    MemoryCanonical s ∧ step s = .next (run s) := ⟨by unfold MemoryCanonical; decide, rfl⟩
/-- A call from the last address, with room for one more return address. -/
theorem witness_StepKeepsPcBounded :
    let s : State := { (State.reset.setPc 0xFFE).placeWord 0x2FFF with sp := 15 }
    PcBounded s ∧ step s = .next (run s) := ⟨⟨by decide, by decide⟩, rfl⟩
/-- A step that sets the latch, and a step of the halted state it leaves. -/
theorem witness_StepKeepsLatchTruthful :
    let s := at0 0x00EE
    LatchTruthful s ∧ step s = .next (run s) ∧ LatchTruthful (run s) ∧ step (run s) = .next (run (run s)) :=
  ⟨⟨rfl, rfl⟩, rfl, ⟨by decide, .ret, by decide, by decide⟩, rfl⟩
theorem witness_CommandsKeepInvariants : EngineInv ((at0 0x00EE).setReg 4 0x05) :=
  ⟨by unfold MemoryCanonical; decide, ⟨by decide, by decide⟩, rfl, rfl⟩
theorem witness_EqualReadsAreEqualMemory :
    let m : Memory := Memory.write [(0x300, 0x11)] 0xFFF 0x22
    let n : Memory := Memory.write [(0xFFF, 0x22)] 0x300 0x11
    m.wf ∧ n.wf ∧ ∀ a, m.read a = n.read a := ⟨by decide, by decide, fun _ => rfl⟩
theorem witness_OnlyNamedInstructionsWrite :
    writesIndex (.ldMemVx 15) = false ∧ (∀ x, Instr.ldMemVx 15 ≠ .ldDtVx x) ∧ (∀ x, Instr.ldMemVx 15 ≠ .ldStVx x) ∧
    writesPicture (.ldMemVx 15) = false ∧ touchesStack (.ldMemVx 15) = false ∧ movesPc (.ldMemVx 15) = false := by decide
theorem witness_OnlyKeyInstructionsReadKeypad : readsKey (.ldVxDt 0) = false := by decide
theorem witness_StepDependsOnStateAndSample : State.reset.port.queue = [] := by decide
theorem witness_LoadOverflowChangesNothing : 3584 < (List.replicate 3585 (0xAA : Byte)).length := by
  rw [List.length_replicate]; decide
theorem witness_LoadProgramCopiesImage : (List.replicate 3584 (0xAA : Byte)).length ≤ 3584 := by
  rw [List.length_replicate]
theorem witness_FirstFetchIsAt0x200 : 2 ≤ ([0x12, 0x00] : List Byte).length ∧ ([0x12, 0x00] : List Byte).length ≤ 3584 := by decide
theorem witness_ResetLeavesResetValues : (79 : Nat) < 80 ∧ (4095 < 4096 ∧ 0x0A0 ≤ 4095) ∧ 0x04F < 0x050 := by decide
theorem witness_EncodeOfDecode : decodeWord 0x8F06 = some (.shr 15 0) ∧ decodeWord 0x8FF6 = some (.shr 15 15) := by decide
theorem witness_DecoderFollowsTheTable :
    decodeWord 0x00EE = some .ret ∧ ∃ r ∈ opcodeTable, r.admits 0x00EE = true := by decide

end Sys2Proof.Tests
end

/-! The two bytes of a word built from them, and the byte order of the fetch (spec/20_memory.md). -/

namespace Sys2Proof

@[simp] theorem highByte_wordOfBytes (hi lo : Byte) : highByte (wordOfBytes hi lo) = hi :=
  BitVec.extractLsb'_append_eq_left

@[simp] theorem lowByte_wordOfBytes (hi lo : Byte) : lowByte (wordOfBytes hi lo) = lo :=
  BitVec.extractLsb'_append_eq_right

/-- Settles O33 (spec/20_memory.md R54): the fetched word is `wordOfBytes` of the bytes at PC and PC + 1, so its number and
its two byte fields are those of `wordOfBytes`. -/
theorem fetchIsBigEndian : Obligations.FetchIsBigEndian := fun s =>
  ⟨Machine.toNat_fetchWord s, highByte_wordOfBytes .., lowByte_wordOfBytes ..⟩

end Sys2Proof

/-! Control flow (spec/41_control_flow.md): what a skip, a push and a pop do to PC and the stack, and what each control
instruction runs. -/

namespace Sys2Proof.Machine

variable (s : State)

theorem exec_jp (nnn : BitVec 12) : exec (.jp nnn) s = .next (s.setPc (addrImm nnn)) := rfl

theorem exec_call (nnn : BitVec 12) :
    exec (.call nnn) s = .next (s.pushPc (encodeWord (.call nnn)) (addrImm nnn)) := rfl

theorem exec_ret : exec .ret s = .next (s.popPc (encodeWord .ret)) := rfl

theorem exec_seImm (x : RegIdx) (kk : Byte) : exec (.seImm x kk) s = .next (s.skipIf (s.reg x == kk)) := rfl

theorem exec_sneImm (x : RegIdx) (kk : Byte) : exec (.sneImm x kk) s = .next (s.skipIf (s.reg x != kk)) := rfl

theorem exec_seReg (x y : RegIdx) : exec (.seReg x y) s = .next (s.skipIf (s.reg x == s.reg y)) := rfl

theorem exec_sneReg (x y : RegIdx) : exec (.sneReg x y) s = .next (s.skipIf (s.reg x != s.reg y)) := rfl

/-- A taken skip advances PC once more, modulo 65536 (spec/40_step_cycle.md R109). -/
theorem toNat_pc_skipIf (c : Bool) :
    (s.skipIf c).pc.toNat = if c then (s.pc.toNat + 2) % 65536 else s.pc.toNat := by
  rw [skipIf_eq, State.pc_setPc]
  cases c with
  | true => exact BitVec.toNat_add s.pc 2
  | false => rfl

theorem onlyPc_skipIf (c : Bool) : OnlyPc s (s.skipIf c) := by
  rw [skipIf_eq]
  exact onlyPc_setPc s _

/-- A skip on equality, the operands compared as numbers. -/
theorem toNat_pc_skipIf_beq (a b : Byte) :
    (s.skipIf (a == b)).pc.toNat = if a.toNat = b.toNat then (s.pc.toNat + 2) % 65536 else s.pc.toNat := by
  simp only [toNat_pc_skipIf, beq_iff_eq, BitVec.toNat_inj]

/-- A skip on inequality, the operands compared as numbers. -/
theorem toNat_pc_skipIf_bne (a b : Byte) :
    (s.skipIf (a != b)).pc.toNat = if a.toNat = b.toNat then s.pc.toNat else (s.pc.toNat + 2) % 65536 := by
  simp only [toNat_pc_skipIf, bne_iff_ne, ne_eq, ite_not, BitVec.toNat_inj]

/-- A pop undoes a push that found room: all that is left of it is the dead slot it wrote. -/
theorem popPc_pushPc (op op' target : Word) (h : s.sp.val < 16) :
    (s.pushPc op target).popPc op' = { s with stack := s.stack.set s.sp.val s.pc h } := by
  rw [pushPc_lt s op target h, popPc_pos _ op' (Nat.succ_pos _)]
  simp only [Nat.add_sub_cancel, Vector.getElem_set_self]

end Sys2Proof.Machine

namespace Sys2Proof

open Machine

/-- Settles O14 (R122): a push with room writes slot SP alone, and a full stack leaves only the latch. -/
theorem callPushesOrOverflows : Obligations.CallPushesOrOverflows := by
  refine fun s nnn => ⟨fun hroom => ?_, fun hfull => ?_⟩
  · rw [exec_call, pushPc_lt s _ _ hroom]
    refine ⟨_, rfl, rfl, toNat_addrImm nnn, fun k hk => ?_, fun _ _ => rfl, rfl, ⟨rfl, rfl⟩, rfl, fun _ => rfl,
      ⟨rfl, rfl, rfl⟩, rfl⟩
    simp only [Vector.getElem_set, eq_comm]
  · rw [exec_call, pushPc_full s _ _ hfull]
    exact ⟨_, rfl, onlyLatch_raise s _ _, latched_raise s _ _⟩

/-- Settles O15 (R120): a pop moves SP and PC alone, an empty stack leaves only the latch, and a pop undoes a push. -/
theorem retPopsOrUnderflows : Obligations.RetPopsOrUnderflows := by
  refine fun s => ⟨fun hpos => ?_, fun hempty => ?_, fun hroom nnn => ?_⟩
  · rw [exec_ret, popPc_pos s _ hpos]
    exact ⟨_, rfl, rfl, rfl, rfl, fun _ _ => rfl, rfl, ⟨rfl, rfl⟩, rfl, fun _ => rfl, ⟨rfl, rfl, rfl⟩, rfl⟩
  · rw [exec_ret, popPc_zero s _ hempty]
    exact ⟨_, rfl, onlyLatch_raise s _ _, latched_raise s _ _⟩
  · refine ⟨_, _, exec_call s nnn, exec_ret _, ?_⟩
    rw [popPc_pushPc s _ _ _ hroom]
    exact ⟨rfl, rfl⟩

/-- Settles O10 (R123, R124): both forms are a skip, on the comparison of Vx with kk or on its negation. -/
theorem skipsCompareImmediate : Obligations.SkipsCompareImmediate := fun s x kk =>
  ⟨⟨_, exec_seImm s x kk, toNat_pc_skipIf_beq s _ _, onlyPc_skipIf s _⟩,
    ⟨_, exec_sneImm s x kk, toNat_pc_skipIf_bne s _ _, onlyPc_skipIf s _⟩⟩

/-- Settles O11 (R125, R126): both forms are a skip, on the comparison of Vx with Vy or on its negation. -/
theorem skipsCompareRegisters : Obligations.SkipsCompareRegisters := fun s x y =>
  ⟨⟨_, exec_seReg s x y, toNat_pc_skipIf_beq s _ _, onlyPc_skipIf s _⟩,
    ⟨_, exec_sneReg s x y, toNat_pc_skipIf_bne s _ _, onlyPc_skipIf s _⟩⟩

/-- Settles O12 (R121): the target is the zero-extended immediate. -/
theorem jpSetsPc : Obligations.JpSetsPc := fun s nnn =>
  ⟨_, exec_jp s nnn, toNat_addrImm nnn, onlyPc_setPc s _⟩

end Sys2Proof

/-! Arithmetic and flags (spec/42_alu.md): the flags and results as numbers, what each register instruction runs, and the
port of a step, of which an instruction sees KEY and RND alone. -/

namespace Sys2Proof.Machine

theorem toNat_flagByte_carryOut (a b : Byte) :
    (flagByte (carryOut a b)).toNat = if a.toNat + b.toNat > 255 then 1 else 0 := by
  simp only [toNat_flagByte, carryOut, decide_eq_true_eq, gt_iff_lt]

theorem toNat_flagByte_noBorrow (a b : Byte) :
    (flagByte (noBorrow a b)).toNat = if a.toNat ≥ b.toNat then 1 else 0 := by
  simp only [toNat_flagByte, noBorrow, decide_eq_true_eq, ge_iff_le]

/-- Bit 0 is the remainder that halving drops. -/
theorem toNat_flagByte_lowBit (a : Byte) : (flagByte (lowBit a)).toNat = a.toNat % 2 := by
  simp only [toNat_flagByte, lowBit, BitVec.getLsbD, Nat.testBit_zero, decide_eq_true_eq]
  split <;> omega

/-- Bit 7 is the quotient by 128, which doubling pushes past 255. -/
theorem toNat_flagByte_highBit (a : Byte) : (flagByte (highBit a)).toNat = a.toNat / 128 := by
  have := a.isLt
  simp only [toNat_flagByte, highBit, BitVec.getLsbD, Nat.testBit_eq_decide_div_mod_eq, decide_eq_true_eq]
  split <;> omega

/-- A difference of bytes, kept positive by one more 256. -/
theorem toNat_sub_byte (a b : Byte) : (a - b).toNat = (256 + a.toNat - b.toNat) % 256 := by
  have := b.isLt
  rw [BitVec.toNat_sub]
  congr 1
  omega

theorem toNat_shr_byte (a : Byte) : (a >>> 1).toNat = a.toNat / 2 := by
  rw [BitVec.toNat_ushiftRight, Nat.shiftRight_eq_div_pow, Nat.pow_one]

theorem toNat_shl_byte (a : Byte) : (a <<< 1).toNat = a.toNat * 2 % 256 := by
  rw [BitVec.toNat_shiftLeft, Nat.shiftLeft_eq, Nat.pow_one]

variable (s : State) (x y : RegIdx)

theorem exec_ldImm (kk : Byte) : exec (.ldImm x kk) s = .next (s.setReg x kk) := rfl

theorem exec_addImm (kk : Byte) : exec (.addImm x kk) s = .next (s.setReg x (s.reg x + kk)) := rfl

theorem exec_ldReg : exec (.ldReg x y) s = .next (s.setReg x (s.reg y)) := rfl

theorem exec_rnd (kk : Byte) : exec (.rnd x kk) s = .next (s.setReg x (s.port.rnd &&& kk)) := rfl

theorem exec_skp : exec (.skp x) s = .next (s.skipIf (s.keyDown (keyIndex (s.reg x)))) := rfl

theorem exec_sknp : exec (.sknp x) s = .next (s.skipIf (!s.keyDown (keyIndex (s.reg x)))) := rfl

theorem exec_addReg :
    exec (.addReg x y) s = .next (s.resultThenFlag x (s.reg x + s.reg y) (carryOut (s.reg x) (s.reg y))) := rfl

theorem exec_sub :
    exec (.sub x y) s = .next (s.flagThenResult x (noBorrow (s.reg x) (s.reg y)) (s.reg x - s.reg y)) := rfl

theorem exec_subn :
    exec (.subn x y) s = .next (s.flagThenResult x (noBorrow (s.reg y) (s.reg x)) (s.reg y - s.reg x)) := rfl

theorem exec_shr : exec (.shr x y) s = .next (s.flagThenResult x (lowBit (s.reg x)) (s.reg x >>> 1)) := rfl

theorem exec_shl : exec (.shl x y) s = .next (s.flagThenResult x (highBit (s.reg x)) (s.reg x <<< 1)) := rfl

theorem reg_setReg_self (b : Byte) : (s.setReg x b).reg x = b := by
  rw [State.reg_setReg, if_pos rfl]

theorem reg_vf_resultThenFlag (b : Byte) (c : Bool) : (s.resultThenFlag x b c).reg vf = flagByte c := by
  rw [reg_resultThenFlag, if_pos rfl]

theorem reg_self_resultThenFlag {x : RegIdx} (b : Byte) (c : Bool) (hx : x ≠ vf) :
    (s.resultThenFlag x b c).reg x = b := by
  rw [reg_resultThenFlag, if_neg hx, if_pos rfl]

theorem reg_self_flagThenResult (c : Bool) (b : Byte) : (s.flagThenResult x c b).reg x = b := by
  rw [reg_flagThenResult, if_pos rfl]

theorem reg_vf_flagThenResult {x : RegIdx} (c : Bool) (b : Byte) (hx : x ≠ vf) :
    (s.flagThenResult x c b).reg vf = flagByte c := by
  rw [reg_flagThenResult, if_neg (Ne.symm hx), if_pos rfl]

/-- What 8xy5, 8xy6, 8xy7 and 8xyE share: the result stays in every destination, the flag in VF unless VF is the destination,
and nothing else changes. The result and the flag are given as numbers. -/
theorem exec_flagThenResult {i : Instr} {s : State} {x : RegIdx} {c : Bool} {b : Byte} {result flag : Nat}
    (hexec : exec i s = .next (s.flagThenResult x c b)) (hresult : b.toNat = result)
    (hflag : (flagByte c).toNat = flag) :
    ∃ t, exec i s = .next t ∧ (t.reg x).toNat = result ∧ (x ≠ vf → (t.reg vf).toNat = flag) ∧ OnlyRegs [x, vf] s t := by
  refine ⟨_, hexec, ?_, fun hx => ?_, onlyRegs_flagThenResult s x b c⟩
  · rw [reg_self_flagThenResult, hresult]
  · rw [reg_vf_flagThenResult s c b hx, hflag]

/-! The port of a step -/

/-- The same engine behind another port. -/
def State.mapPort (s : State) (g : Port → Port) : State := { s with port := g s.port }

/-- The change of port `g` neither reads nor writes the event. -/
def IgnoresEvent (g : Port → Port) : Prop := ∀ (p : Port) (e : Event), g { p with event := e } = { g p with event := e }

variable (g : Port → Port)

/-- Another RND in the port. -/
def Port.setRnd (r : Byte) (p : Port) : Port := { p with rnd := r }

theorem withRnd_eq_mapPort (r : Byte) : s.withRnd r = s.mapPort (.setRnd r) := rfl

theorem ignoresEvent_setRnd (r : Byte) : IgnoresEvent (.setRnd r) := fun _ _ => rfl

theorem skipIf_mapPort (c : Bool) : (s.mapPort g).skipIf c = (s.skipIf c).mapPort g := by
  rw [skipIf_eq, skipIf_eq]
  rfl

theorem loadRegs_mapPort (a n : Nat) : (s.mapPort g).loadRegs a n = (s.loadRegs a n).mapPort g := by
  induction n with
  | zero => rfl
  | succ k ih =>
    rw [loadRegs_succ, ih, loadRegs_succ]
    rfl

theorem keyDown_mapPort (hkey : (g s.port).key = s.port.key) (k : Fin 16) : (s.mapPort g).keyDown k = s.keyDown k :=
  congrArg (·.getLsbD k.val) hkey

/-- A poll of Fx0A sees nothing of the port but KEY. -/
theorem pollKey_mapPort (hkey : (g s.port).key = s.port.key) : (s.mapPort g).pollKey x = (s.pollKey x).mapPort g := by
  have hfirst : firstKey (s.mapPort g).port.key = firstKey s.port.key := congrArg firstKey hkey
  cases h : firstKey s.port.key with
  | none => rw [pollKey_none s x h, pollKey_none _ x (hfirst.trans h)]; rfl
  | some k => rw [pollKey_some s x k h, pollKey_some _ x k (hfirst.trans h)]; rfl

section IgnoresEvent

variable {g} (hg : IgnoresEvent g)
include hg

/-- A fault entry overwrites the event and nothing else of the port. -/
theorem raise_mapPort (cause : FaultCause) (op : Word) :
    (s.mapPort g).raise cause op = (s.raise cause op).mapPort g :=
  congrArg (fun p => { s with halt := true, faultCause := cause, faultOpcode := op, port := p })
    (hg s.port (.fault cause op s.pc)).symm

theorem guardAccess_mapPort (len : Nat) (op : Word) {t t' : State} (hdone : t' = t.mapPort g) :
    (s.mapPort g).guardAccess len op t' = (s.guardAccess len op t).mapPort g := by
  subst hdone
  by_cases h : 0 < len ∧ 4095 < s.i.toNat + len - 1
  · rw [guardAccess_raise s len op t h, guardAccess_raise (s.mapPort g) len op _ h, raise_mapPort s hg]
  · rw [guardAccess_done s len op t h, guardAccess_done (s.mapPort g) len op _ h]

theorem popPc_mapPort (op : Word) : (s.mapPort g).popPc op = (s.popPc op).mapPort g := by
  rcases Nat.eq_zero_or_pos s.sp.val with h | h
  · rw [popPc_zero s op h, popPc_zero (s.mapPort g) op h, raise_mapPort s hg]
  · rw [popPc_pos s op h, popPc_pos (s.mapPort g) op h]
    rfl

theorem pushPc_mapPort (op target : Word) : (s.mapPort g).pushPc op target = (s.pushPc op target).mapPort g := by
  rcases Nat.lt_or_eq_of_le (Nat.le_of_lt_succ s.sp.isLt) with h | h
  · rw [pushPc_lt s op target h, pushPc_lt (s.mapPort g) op target h]
    rfl
  · rw [pushPc_full s op target h, pushPc_full (s.mapPort g) op target h, raise_mapPort s hg]

/-- An instruction sees nothing of the port but KEY, if it is one of the three that read the keypad, and RND, if it is Cxkk;
and it writes nothing there but the event. So a change of the port that keeps what it sees commutes with it. -/
theorem exec_mapPort (i : Instr) (hkey : readsKey i = true → (g s.port).key = s.port.key)
    (hrnd : ∀ x kk, i = .rnd x kk → (g s.port).rnd = s.port.rnd) :
    exec i (s.mapPort g) = mapNext (·.mapPort g) (exec i s) := by
  cases i with
  | ret => exact congrArg Host.Outcome.next (popPc_mapPort s hg _)
  | call nnn => exact congrArg Host.Outcome.next (pushPc_mapPort s hg _ _)
  | seImm | sneImm | seReg | sneReg => exact congrArg Host.Outcome.next (skipIf_mapPort s g _)
  | skp x => rw [exec_skp, exec_skp, keyDown_mapPort s g (hkey rfl), skipIf_mapPort]; rfl
  | sknp x => rw [exec_sknp, exec_sknp, keyDown_mapPort s g (hkey rfl), skipIf_mapPort]; rfl
  | ldVxK x => exact congrArg Host.Outcome.next (pollKey_mapPort s x g (hkey rfl))
  | rnd x kk =>
    have hport : (s.mapPort g).port.rnd = s.port.rnd := hrnd x kk rfl
    rw [exec_rnd, exec_rnd, hport]; rfl
  | drw x y n => exact congrArg Host.Outcome.next (guardAccess_mapPort s hg _ _ (t := s.drawAt x y n.val) rfl)
  | ldB x =>
    exact congrArg Host.Outcome.next
      (guardAccess_mapPort s hg _ _ (t := s.storeBytes s.i.toNat (decimalDigits (s.reg x))) rfl)
  | ldMemVx x =>
    exact congrArg Host.Outcome.next
      (guardAccess_mapPort s hg _ _ (t := s.storeBytes s.i.toNat (s.regsUpTo x)) rfl)
  | ldVxMem x => exact congrArg Host.Outcome.next (guardAccess_mapPort s hg _ _ (loadRegs_mapPort s g _ _))
  | _ => rfl

end IgnoresEvent

end Sys2Proof.Machine

namespace Sys2Proof

open Machine

/-- Settles O5 (R146): the carry is written last, so it stays for every x, and the sum stays where it is not overwritten. -/
theorem addRegSumAndCarry : Obligations.AddRegSumAndCarry := by
  refine fun s x y => ⟨_, exec_addReg s x y, ?_, fun hx => ?_, onlyRegs_resultThenFlag s x _ _⟩
  · rw [reg_vf_resultThenFlag, toNat_flagByte_carryOut]
  · rw [reg_self_resultThenFlag s _ _ hx, BitVec.toNat_add]

/-- Settles O6 (R147, R149): both are flag, then difference, with the operands exchanged. -/
theorem subtractionFlagThenResult : Obligations.SubtractionFlagThenResult := fun s x y =>
  ⟨exec_flagThenResult (exec_sub s x y) (toNat_sub_byte ..) (toNat_flagByte_noBorrow ..),
    exec_flagThenResult (exec_subn s x y) (toNat_sub_byte ..) (toNat_flagByte_noBorrow ..)⟩

/-- Settles O7 (R148, R150): both are the lost bit of Vx, then Vx shifted. -/
theorem shiftsCaptureLostBit : Obligations.ShiftsCaptureLostBit := fun s x y =>
  ⟨exec_flagThenResult (exec_shr s x y) (toNat_shr_byte _) (toNat_flagByte_lowBit _),
    exec_flagThenResult (exec_shl s x y) (toNat_shl_byte _) (toNat_flagByte_highBit _)⟩

/-- Settles O9 (R152): Cxkk masks RND bit by bit, and another RND is a change of the port that keeps KEY and the event. -/
theorem rndAloneConsumesRandomByte : Obligations.RndAloneConsumesRandomByte := by
  refine ⟨fun s x kk => ⟨_, exec_rnd s x kk, fun k _ => ?_, onlyRegs_setReg s x _⟩, fun i s r hi => ?_⟩
  · rw [reg_setReg_self, BitVec.getLsbD_and]
  · simp only [withRnd_eq_mapPort]
    exact exec_mapPort s (ignoresEvent_setRnd r) i (fun _ => rfl) (fun x kk h => absurd h (hi x kk))

/-- Settles O1 (R140): one register write, of the immediate. -/
theorem ldImmLoadsImmediate : Obligations.LdImmLoadsImmediate := fun s x kk =>
  ⟨_, exec_ldImm s x kk, reg_setReg_self s x kk, onlyRegs_setReg s x kk⟩

/-- Settles O2 (R141): one register write, of the byte sum. -/
theorem addImmWrapsWithoutFlag : Obligations.AddImmWrapsWithoutFlag := by
  refine fun s x kk => ⟨_, exec_addImm s x kk, ?_, onlyRegs_setReg s x _⟩
  rw [reg_setReg_self, BitVec.toNat_add]

/-- Settles O3 (R142): one register write, of Vy. -/
theorem ldRegCopiesRegister : Obligations.LdRegCopiesRegister := fun s x y =>
  ⟨_, exec_ldReg s x y, reg_setReg_self s x _, onlyRegs_setReg s x _⟩

end Sys2Proof

/-! Index register and memory (spec/43_index_memory.md): what the bytes stored at I read as, what a guarded access does on
either side of its bound, and what each instruction of the family runs. -/

namespace Sys2Proof.Machine

variable (s : State)

theorem readByte_storeBytes_inside (a : Nat) (bs : List Byte) (j : Nat) (h : j < bs.length) :
    (s.storeBytes a bs).readByte (a + j) = bs[j] :=
  Memory.read_writeBytes_inside s.mem a bs j h

theorem sameMemoryOutside_storeBytes (a : Nat) (bs : List Byte) :
    SameMemoryOutside a bs.length s (s.storeBytes a bs) :=
  fun k hk => Memory.read_writeBytes_outside s.mem a bs k hk

/-- V0..Vx stored at `a` are read back at `a`, `a + 1`, ... -/
theorem readByte_storeBytes_regsUpTo (a : Nat) {x r : RegIdx} (hr : r ≤ x) :
    (s.storeBytes a (s.regsUpTo x)).readByte (a + r.val) = s.reg r := by
  have hlt : r.val < (s.regsUpTo x).length := by
    rw [length_regsUpTo]
    exact Nat.lt_succ_of_le hr
  rw [readByte_storeBytes_inside s a _ _ hlt, getElem_regsUpTo]

/-- The digits of a byte, each small enough to be a byte itself. -/
theorem toNat_decimalDigits (b : Byte) :
    (decimalDigits b).map BitVec.toNat = [b.toNat / 100, b.toNat / 10 % 10, b.toNat % 10] := by
  have := b.isLt
  simp only [decimalDigits, List.map_cons, List.map_nil, BitVec.toNat_ofNat, List.cons.injEq, and_true]
  omega

/-- Byte `j` of the stored digits, as a number. -/
theorem toNat_readByte_storeBytes_decimalDigits (a : Nat) (b : Byte) (j : Nat) (h : j < 3) :
    ((s.storeBytes a (decimalDigits b)).readByte (a + j)).toNat =
      [b.toNat / 100, b.toNat / 10 % 10, b.toNat % 10][j] := by
  have hlen : j < (decimalDigits b).length := h
  simp only [readByte_storeBytes_inside s a _ j hlen, ← toNat_decimalDigits, List.getElem_map]

theorem mem_dests_ldVxMem {x r : RegIdx} : r ∈ dests (.ldVxMem x) ↔ r ≤ x := by
  simp only [dests, List.mem_filter, List.mem_finRange, true_and, decide_eq_true_eq]

/-- A block load of V0..Vx writes these registers and nothing else. -/
theorem onlyRegs_loadRegs (a : Nat) (x : RegIdx) :
    OnlyRegs (dests (.ldVxMem x)) s (s.loadRegs a (x.val + 1)) := by
  have hregs : SameRegsBut (dests (.ldVxMem x)) s (s.loadRegs a (x.val + 1)) := fun r hr => by
    rw [reg_loadRegs s a _ x.isLt, if_neg fun hlt => hr (mem_dests_ldVxMem.2 (Nat.le_of_lt_succ hlt))]
  obtain ⟨v, hv⟩ := loadRegs_frame s a (x.val + 1)
  rw [hv] at hregs ⊢
  exact ⟨hregs, rfl, rfl, ⟨rfl, rfl⟩, ⟨rfl, rfl⟩, rfl, fun _ => rfl, ⟨rfl, rfl, rfl⟩, rfl⟩

/-! What each instruction runs -/

variable (x : RegIdx)

theorem exec_ldI (nnn : BitVec 12) : exec (.ldI nnn) s = .next (s.setI (addrImm nnn)) := rfl

theorem exec_addI : exec (.addI x) s = .next (s.setI (s.i + wideByte (s.reg x))) := rfl

theorem exec_ldB :
    exec (.ldB x) s =
      .next (s.guardAccess 3 (encodeWord (.ldB x)) (s.storeBytes s.i.toNat (decimalDigits (s.reg x)))) := rfl

theorem exec_ldMemVx :
    exec (.ldMemVx x) s =
      .next (s.guardAccess (x.val + 1) (encodeWord (.ldMemVx x)) (s.storeBytes s.i.toNat (s.regsUpTo x))) := rfl

theorem exec_ldVxMem :
    exec (.ldVxMem x) s =
      .next (s.guardAccess (x.val + 1) (encodeWord (.ldVxMem x)) (s.loadRegs s.i.toNat (x.val + 1))) := rfl

section Guarded

variable {s} {i : Instr} {n : Nat} {op : Word} {done : State}
  (hexec : exec i s = .next (s.guardAccess (n + 1) op done))
include hexec

/-- An access whose last byte, at `I + n`, lies in memory does what it does (spec/20_memory.md R58). -/
theorem exec_guardAccess_inRange (h : s.i.toNat + n ≤ 4095) : exec i s = .next done := by
  rw [hexec, guardAccess_done s _ _ _ (by omega)]

/-- An access whose last byte lies above memory leaves only the latch (spec/60_exceptions.md R234). -/
theorem exec_guardAccess_outOfRange (h : 4095 < s.i.toNat + n) :
    ∃ t, exec i s = .next t ∧ OnlyLatch s t ∧ Latched .memOutOfRange op s t := by
  rw [hexec, guardAccess_raise s _ _ _ (by omega)]
  exact ⟨_, rfl, onlyLatch_raise s _ _, latched_raise s _ _⟩

end Guarded

/-- In range, Fx55 is the store alone. -/
theorem exec_ldMemVx_inRange (h : s.i.toNat + x.val ≤ 4095) :
    exec (.ldMemVx x) s = .next (s.storeBytes s.i.toNat (s.regsUpTo x)) :=
  exec_guardAccess_inRange (exec_ldMemVx s x) h

/-- In range, Fx65 puts the byte at `I + r` into every `Vr` up to Vx and changes nothing else. -/
theorem exec_ldVxMem_inRange (h : s.i.toNat + x.val ≤ 4095) :
    ∃ t, exec (.ldVxMem x) s = .next t ∧ (∀ r ≤ x, t.reg r = s.readByte (s.i.toNat + r.val)) ∧
      OnlyRegs (dests (.ldVxMem x)) s t := by
  refine ⟨_, exec_guardAccess_inRange (exec_ldVxMem s x) h, fun r hr => ?_, onlyRegs_loadRegs s _ x⟩
  rw [reg_loadRegs s _ _ x.isLt, if_pos (Nat.lt_succ_of_le hr)]

end Sys2Proof.Machine

namespace Sys2Proof

open Machine

/-- Settles O20 (R163): in range the three digits are stored, and out of range only the latch changes. -/
theorem ldBStoresDecimalDigits : Obligations.LdBStoresDecimalDigits := by
  refine fun s x => ⟨fun hin => ?_, exec_guardAccess_outOfRange (exec_ldB s x)⟩
  have hdigit := toNat_readByte_storeBytes_decimalDigits s s.i.toNat (s.reg x)
  exact ⟨_, exec_guardAccess_inRange (exec_ldB s x) hin, hdigit 0 (by decide), hdigit 1 (by decide),
    hdigit 2 (by decide), sameMemoryOutside_storeBytes s _ (decimalDigits (s.reg x)), onlyMemory_storeBytes s _ _⟩

/-- Settles O21 (R164): in range V0..Vx are stored, and out of range only the latch changes. -/
theorem ldMemVxStoresRegisters : Obligations.LdMemVxStoresRegisters := by
  refine fun s x => ⟨fun hin => ?_, exec_guardAccess_outOfRange (exec_ldMemVx s x)⟩
  have houtside := sameMemoryOutside_storeBytes s s.i.toNat (s.regsUpTo x)
  rw [length_regsUpTo] at houtside
  exact ⟨_, exec_ldMemVx_inRange s x hin, fun _ => readByte_storeBytes_regsUpTo s _, houtside,
    onlyMemory_storeBytes s _ _⟩

/-- Settles O22 (R165): in range V0..Vx are loaded, out of range only the latch changes, and after Fx55 the bytes loaded are
the registers it stored. -/
theorem ldVxMemLoadsRegisters : Obligations.LdVxMemLoadsRegisters := by
  refine ⟨fun s x => ⟨fun hin => ?_, exec_guardAccess_outOfRange (exec_ldVxMem s x)⟩,
    fun s t u x hin hstore hi hmem => ?_⟩
  · obtain ⟨t, hexec, hload, hother, hframe⟩ := exec_ldVxMem_inRange s x hin
    exact ⟨t, hexec, hload, fun r hr => hother r fun hmem => Fin.not_le.2 hr (mem_dests_ldVxMem.1 hmem), hframe⟩
  · obtain rfl : s.storeBytes s.i.toNat (s.regsUpTo x) = t :=
      Host.Outcome.next.inj ((exec_ldMemVx_inRange s x hin).symm.trans hstore)
    rw [State.i_storeBytes] at hi
    obtain ⟨v, hexec, hload, -⟩ := exec_ldVxMem_inRange u x (by rwa [hi])
    refine ⟨v, hexec, fun r hr => ?_⟩
    rw [hload r hr, hi, hmem, readByte_storeBytes_regsUpTo s _ hr]

/-- Settles O17 (R160): one write of I, of the zero-extended immediate. -/
theorem ldISetsIndex : Obligations.LdISetsIndex := fun s nnn =>
  ⟨_, exec_ldI s nnn, toNat_addrImm nnn, onlyI_setI s _⟩

/-- Settles O18 (R161): one write of I, of the 16-bit sum. -/
theorem addIWrapsAtSixteenBits : Obligations.AddIWrapsAtSixteenBits := by
  refine fun s x => ⟨_, exec_addI s x, ?_, onlyI_setI s _⟩
  rw [State.i_setI, BitVec.toNat_add, toNat_wideByte]

end Sys2Proof

/-! Display (spec/44_display.md): what 00E0 runs, and what a write of the picture leaves unchanged. -/

namespace Sys2Proof.Machine

variable (s : State)

theorem exec_cls : exec .cls s = .next (s.setFb Framebuffer.blank) := rfl

/-- A write of the picture changes nothing else. -/
theorem setFb_frame (f : Framebuffer) :
    SameRegsBut [] s (s.setFb f) ∧ (s.setFb f).i = s.i ∧ (s.setFb f).pc = s.pc ∧ SameTimers s (s.setFb f) ∧
      SameStack s (s.setFb f) ∧ SameMemory s (s.setFb f) ∧ Quiet s (s.setFb f) :=
  ⟨fun r _ => State.reg_setFb s f r, State.i_setFb s f, State.pc_setFb s f,
    ⟨State.dt_setFb s f, State.st_setFb s f⟩, ⟨State.sp_setFb s f, State.stack_setFb s f⟩, State.readByte_setFb s f,
    ⟨State.halt_setFb s f, State.faultCause_setFb s f, State.faultOpcode_setFb s f⟩, State.port_setFb s f⟩

end Sys2Proof.Machine

namespace Sys2Proof

open Machine

/-- Settles O24 (R180): one write of the picture, of the blank one. -/
theorem clsTurnsEveryPixelOff : Obligations.ClsTurnsEveryPixelOff := fun s =>
  ⟨_, exec_cls s, pixel_blank, setFb_frame s Framebuffer.blank⟩

end Sys2Proof

/-! Exceptions (spec/60_exceptions.md): a fetch past the end of memory, and an image past the end of program memory. -/

namespace Sys2Proof.Machine

variable (s : State)

/-- A fetch fails exactly when its second byte lies above memory (spec/20_memory.md R59). -/
theorem fetchable_eq_false_iff : s.fetchable = false ↔ 4095 < s.pc.toNat + 1 := by
  rw [← Bool.not_eq_true, fetchable_iff, Nat.not_le]

/-- The start of a step writes the port alone, so a frame since then is a frame since the step before it. -/
theorem onlyLatch_of_onlyLatch_begin {s t : State} (h : OnlyLatch s.begin t) : OnlyLatch s t := h

theorem imageWellFormed_eq_false_iff (image : List Byte) : imageWellFormed image = false ↔ 3584 < image.length := by
  rw [imageWellFormed, decide_eq_false_iff_not, Config.progMax, Nat.not_le]

theorem loadProgram_overflow {image : List Byte} (h : 3584 < image.length) :
    s.loadProgram image = (.overflow, s) := by
  rw [State.loadProgram, (imageWellFormed_eq_false_iff image).2 h, if_neg Bool.false_ne_true]

theorem obey_loadProgram (image : List Byte) :
    s.obey (.loadProgram image) = .next (.load (s.loadProgram image).1, (s.loadProgram image).2) := rfl

end Sys2Proof.Machine

namespace Sys2Proof

open Machine

/-- Settles O35 (R231): such a step is the raise of FETCH_OUT_OF_RANGE alone, before the advance and the tick. -/
theorem fetchPastEndFaults : Obligations.FetchPastEndFaults := fun s hrun hend =>
  have hstep := step_unfetchable s hrun ((fetchable_eq_false_iff s).2 hend)
  ⟨_, hstep, rfl, rfl, rfl, rfl, rfl, onlyLatch_of_onlyLatch_begin (onlyLatch_raise s.begin _ _)⟩

/-- Settles O51 (R239): the image is rejected before any write. -/
theorem loadOverflowChangesNothing : Obligations.LoadOverflowChangesNothing := fun s image hlen => by
  rw [obey_loadProgram, loadProgram_overflow s hlen]

end Sys2Proof

/-! Reset and hazards (spec/70_reset_and_hazards.md): what `reset` and an accepted image leave, and the fetch of stored
bytes. -/

namespace Sys2Proof.Machine

variable (s : State)

theorem obey_reset : s.obey .reset = .next (.done, s.resetCommand) := rfl

@[simp] theorem State.pc_resetCommand : s.resetCommand.pc = Config.pcReset := rfl

@[simp] theorem State.halt_resetCommand : s.resetCommand.halt = false := rfl

/-- The entry point is the load address (spec/70_reset_and_hazards.md R261). -/
theorem toNat_pcReset : Config.pcReset.toNat = Config.progBase := rfl

theorem imageWellFormed_iff (image : List Byte) : imageWellFormed image = true ↔ image.length ≤ 3584 := by
  rw [imageWellFormed, decide_eq_true_iff]

theorem loadProgram_ok {image : List Byte} (h : image.length ≤ 3584) :
    s.loadProgram image = (.ok, s.storeBytes Config.progBase image) := by
  rw [State.loadProgram, if_pos ((imageWellFormed_iff image).2 h)]

theorem obey_loadProgram_ok {image : List Byte} (h : image.length ≤ 3584) :
    s.obey (.loadProgram image) = .next (.load .ok, s.storeBytes Config.progBase image) := by
  rw [obey_loadProgram, loadProgram_ok s h]

theorem fetchable_of_pc_eq_pcReset {s : State} (h : s.pc = Config.pcReset) : s.fetchable = true := by
  rw [fetchable_iff, h, toNat_pcReset]
  decide

/-- The fetch after a store at PC reads the first two bytes stored. -/
theorem toNat_fetchWord_storeBytes {a : Nat} (hpc : s.pc.toNat = a) (bs : List Byte) (h : 2 ≤ bs.length) :
    (s.storeBytes a bs).fetchWord.toNat = bs[0].toNat * 256 + bs[1].toNat := by
  have hfirst := readByte_storeBytes_inside s a bs 0 (by omega)
  have hsecond := readByte_storeBytes_inside s a bs 1 (by omega)
  rw [Nat.add_zero] at hfirst
  rw [toNat_fetchWord, State.pc_storeBytes, hpc, hfirst, hsecond]

end Sys2Proof.Machine

namespace Sys2Proof

open Machine

/-- Settles O54 (R261): `reset` puts PC at the load address, and loading stores the image there and moves nothing else. -/
theorem firstFetchIsAt0x200 : Obligations.FirstFetchIsAt0x200 := by
  refine ⟨toNat_pcReset, rfl, fetchable_of_pc_eq_pcReset rfl, fun s image htwo hfits => ?_⟩
  have hpc : (s.resetCommand.storeBytes Config.progBase image).pc = Config.pcReset := by
    rw [State.pc_storeBytes, State.pc_resetCommand]
  have hhalt : (s.resetCommand.storeBytes Config.progBase image).halt = false := by
    rw [State.halt_storeBytes, State.halt_resetCommand]
  have hword := toNat_fetchWord_storeBytes s.resetCommand toNat_pcReset image htwo
  exact ⟨_, _, obey_reset s, obey_loadProgram_ok _ hfits, congrArg BitVec.toNat hpc, hhalt,
    fetchable_of_pc_eq_pcReset hpc, hword⟩

end Sys2Proof

/-! Encoding (spec/30_encoding.md): a word is its fields put together again, and the fields a row of the table fixes are
those that the decoder looks at. -/

namespace Sys2Proof

/-! A word from its fields: the family and, where the format has one, the selector are given as numbers. -/

theorem wordNnn_of_fields {w : Word} {f : BitVec 4} (hf : (opFamily w).toNat = f.toNat) : wordNnn f (opNnn w) = w := by
  apply BitVec.eq_of_toNat_eq
  rw [toNat_wordNnn, ← hf, toNat_opFamily, toNat_opNnn]
  omega

theorem wordXkk_of_fields {w : Word} {f : BitVec 4} {kk : Byte} (hf : (opFamily w).toNat = f.toNat)
    (hkk : (opKk w).toNat = kk.toNat) : wordXkk f (opX w) kk = w := by
  apply BitVec.eq_of_toNat_eq
  rw [toNat_wordXkk, ← hf, ← hkk, toNat_opFamily, val_opX, toNat_opKk]
  omega

theorem wordXyn_of_fields {w : Word} {f : BitVec 4} {n : Fin 16} (hf : (opFamily w).toNat = f.toNat)
    (hn : (opN w).val = n.val) : wordXyn f (opX w) (opY w) n = w := by
  apply BitVec.eq_of_toNat_eq
  rw [toNat_wordXyn, ← hf, ← hn, toNat_opFamily, val_opX, val_opY, val_opN]
  omega

/-! Decoding an instruction's own word -/

/-- The decoder reads back the fields that the encoder put in, family and selector included. -/
theorem decodeWord_encodeWord (i : Instr) : decodeWord (encodeWord i) = some i := by
  cases i with
  | cls | ret => rfl
  | jp | call | ldI | jpV0 | seImm | sneImm | ldImm | addImm | rnd | seReg | sneReg | drw =>
    simp [decodeWord, encodeWord]
  | skp | sknp => simp [decodeWord, decodeFamilyE, encodeWord]
  | ldVxDt | ldVxK | ldDtVx | ldStVx | addI | ldF | ldB | ldMemVx | ldVxMem =>
    simp [decodeWord, decodeFamilyF, encodeWord]
  | _ => simp [decodeWord, decodeFamily8, encodeWord]

theorem decode_encode_append (i : Instr) (rest : List Byte) : decode (encode i ++ rest) = .ok (i, rest) := by
  simp only [encode, List.cons_append, List.nil_append, decode, wordOfBytes_bytes, decodeWord_encodeWord]

/-! Encoding what a word decodes to -/

section EncodeOfDecode

variable {w : Word} {i : Instr}

theorem encodeWord_of_decodeFamily8 (hf : (opFamily w).toNat = 8) (h : decodeFamily8 w = some i) : encodeWord i = w := by
  unfold decodeFamily8 at h
  split at h
  case h_10 => cases h
  all_goals cases h; exact wordXyn_of_fields hf ‹_›

theorem encodeWord_of_decodeFamilyE (hf : (opFamily w).toNat = 14) (h : decodeFamilyE w = some i) :
    encodeWord i = w := by
  unfold decodeFamilyE at h
  split at h
  case h_3 => cases h
  all_goals cases h; exact wordXkk_of_fields hf ‹_›

theorem encodeWord_of_decodeFamilyF (hf : (opFamily w).toNat = 15) (h : decodeFamilyF w = some i) :
    encodeWord i = w := by
  unfold decodeFamilyF at h
  split at h
  case h_10 => cases h
  all_goals cases h; exact wordXkk_of_fields hf ‹_›

/-- Family by family: what the decoder does not put into the instruction it has compared with the row's pattern. -/
theorem encodeWord_of_decodeWord (h : decodeWord w = some i) : encodeWord i = w := by
  have hlt := (opFamily w).isLt
  unfold decodeWord at h
  split at h
  case h_1 =>
    split at h
    · cases h; exact Eq.symm ‹_›
    · split at h
      · cases h; exact Eq.symm ‹_›
      · cases h
  case h_2 | h_3 | h_11 | h_12 => cases h; exact wordNnn_of_fields ‹_›
  case h_4 | h_5 | h_7 | h_8 | h_13 => cases h; exact wordXkk_of_fields ‹_› rfl
  case h_6 | h_10 =>
    split at h
    · cases h; exact wordXyn_of_fields ‹_› (congrArg Fin.val ‹opN w = 0›)
    · cases h
  case h_14 => cases h; exact wordXyn_of_fields ‹_› rfl
  case h_9 => exact encodeWord_of_decodeFamily8 ‹_› h
  case h_15 => exact encodeWord_of_decodeFamilyE ‹_› h
  case h_16 =>
    have hf : (opFamily w).toNat = 15 := by grind
    exact encodeWord_of_decodeFamilyF hf h

end EncodeOfDecode

/-! The rows of the table: what a row's mask and pattern say of the fields of a word it admits -/

section Admits

variable {p w : Word}

theorem eq_of_admits_FFFF (h : Row.admits ⟨0xFFFF, p⟩ w = true) : w = p := by
  exact (BitVec.and_allOnes).symm.trans (beq_iff_eq.1 h)

theorem toNat_opFamily_of_admits_F000 (h : Row.admits ⟨0xF000, p⟩ w = true) : (opFamily w).toNat = p.toNat / 4096 := by
  have hnum := (toNat_and_F000 w).symm.trans (congrArg BitVec.toNat (beq_iff_eq.1 h))
  have hpat : (Row.pattern ⟨0xF000, p⟩).toNat = p.toNat := rfl
  rw [toNat_opFamily]
  omega

theorem fields_of_admits_F00F (h : Row.admits ⟨0xF00F, p⟩ w = true) :
    (opFamily w).toNat = p.toNat / 4096 ∧ (opN w).val = p.toNat % 16 := by
  have hnum := (toNat_and_F00F w).symm.trans (congrArg BitVec.toNat (beq_iff_eq.1 h))
  have hpat : (Row.pattern ⟨0xF00F, p⟩).toNat = p.toNat := rfl
  rw [toNat_opFamily, val_opN]
  omega

theorem fields_of_admits_F0FF (h : Row.admits ⟨0xF0FF, p⟩ w = true) :
    (opFamily w).toNat = p.toNat / 4096 ∧ (opKk w).toNat = p.toNat % 256 := by
  have hnum := (toNat_and_F0FF w).symm.trans (congrArg BitVec.toNat (beq_iff_eq.1 h))
  have hpat : (Row.pattern ⟨0xF0FF, p⟩).toNat = p.toNat := rfl
  rw [toNat_opFamily, toNat_opKk]
  omega

end Admits

/-- An instruction's word is admitted by its row: the row's mask and pattern hold the fields its format fixes. -/
theorem admits_encodeWord (i : Instr) : i.row.admits (encodeWord i) = true := by
  cases i with
  | cls | ret => decide
  | jp | call | ldI | jpV0 => exact Laws.EncodesInRow.admits_nnn _ _ _ rfl
  | seImm | sneImm | ldImm | addImm | rnd => exact Laws.EncodesInRow.admits_xkk _ _ _ _ rfl
  | drw => exact Laws.EncodesInRow.admits_xyn _ _ _ _ _ rfl
  | skp | sknp | ldVxDt | ldVxK | ldDtVx | ldStVx | addI | ldF | ldB | ldMemVx | ldVxMem =>
    exact Laws.EncodesInRow.admits_x _ _ _ _ rfl
  | _ => exact Laws.EncodesInRow.admits_xy _ _ _ _ _ rfl

/-- A word that a row admits decodes to an instruction of that row: the fields the row fixes are all the decoder tests. -/
theorem decodeWord_of_admits (i : Instr) {w : Word} (h : i.row.admits w = true) :
    ∃ j, decodeWord w = some j ∧ j.row = i.row := by
  cases i with
  | cls | ret => rw [eq_of_admits_FFFF h]; exact ⟨_, rfl, rfl⟩
  | jp | call | ldI | jpV0 | seImm | sneImm | ldImm | addImm | rnd | drw =>
    have hf := toNat_opFamily_of_admits_F000 h
    simp [decodeWord, hf, Instr.row]
  | skp | sknp =>
    obtain ⟨hf, hkk⟩ := fields_of_admits_F0FF h
    simp [decodeWord, decodeFamilyE, hf, hkk, Instr.row]
  | ldVxDt | ldVxK | ldDtVx | ldStVx | addI | ldF | ldB | ldMemVx | ldVxMem =>
    obtain ⟨hf, hkk⟩ := fields_of_admits_F0FF h
    simp [decodeWord, decodeFamilyF, hf, hkk, Instr.row]
  | seReg | sneReg =>
    obtain ⟨hf, hn⟩ := fields_of_admits_F00F h
    simp [decodeWord, hf, Fin.ext_iff, hn, Instr.row]
  | _ =>
    obtain ⟨hf, hn⟩ := fields_of_admits_F00F h
    simp [decodeWord, decodeFamily8, hf, hn, Instr.row]

/-- The rows of the table are the rows of the instructions. -/
theorem exists_row_of_mem_opcodeTable {r : Row} (h : r ∈ opcodeTable) : ∃ i : Instr, i.row = r := by
  rw [opcodeTable, ← List.map_append] at h
  obtain ⟨i, -, hi⟩ := List.mem_map.1 h
  exact ⟨i, hi⟩

theorem decodeWord_of_mem_opcodeTable {r : Row} {w : Word} (hr : r ∈ opcodeTable) (h : r.admits w = true) :
    ∃ i, decodeWord w = some i ∧ i.row = r := by
  obtain ⟨i, rfl⟩ := exists_row_of_mem_opcodeTable hr
  exact decodeWord_of_admits i h

theorem admits_of_decodeWord {w : Word} {i : Instr} (h : decodeWord w = some i) : i.row.admits w = true := by
  rw [← encodeWord_of_decodeWord h]
  exact admits_encodeWord i

theorem isSome_decodeWord (w : Word) : (decodeWord w).isSome = wordWellFormed w := by
  rw [Bool.eq_iff_iff, Option.isSome_iff_exists, wordWellFormed, List.any_eq_true]
  constructor
  · rintro ⟨i, hi⟩
    exact ⟨i.row, Laws.EncodesInRow.row_mem i, admits_of_decodeWord hi⟩
  · rintro ⟨r, hr, hadmits⟩
    obtain ⟨i, hi, -⟩ := decodeWord_of_mem_opcodeTable hr hadmits
    exact ⟨i, hi⟩

/-- Settles O56: the fields of a word built by a format are those it was built from, and a word is its two bytes. -/
theorem decodeOfEncode : Obligations.DecodeOfEncode := fun i rest =>
  ⟨decodeWord_encodeWord i, decode_encode_append i rest⟩

/-- Settles O57: the decoder fixes the family and the selector, and keeps every other field in the instruction. -/
theorem encodeOfDecode : Obligations.EncodeOfDecode := fun _ _ => encodeWord_of_decodeWord

/-- Settles O58: an admitted word decodes to an instruction of the admitting row, so two admitting rows are both the row of
the one instruction the word is. -/
theorem decoderFollowsTheTable : Obligations.DecoderFollowsTheTable := by
  refine ⟨isSome_decodeWord, fun _ _ => admits_of_decodeWord, fun w r hr q hq hrw hqw => ?_⟩
  obtain ⟨i, hi, rfl⟩ := decodeWord_of_mem_opcodeTable hr hrw
  obtain ⟨j, hj, rfl⟩ := decodeWord_of_mem_opcodeTable hq hqw
  rw [Option.some.inj (hi.symm.trans hj)]

/-- Settles O59 (30_encoding.md section 3): seven words, each decoded by evaluation. -/
theorem sampleWordsDecode : Obligations.SampleWordsDecode := by
  unfold Obligations.SampleWordsDecode
  decide

end Sys2Proof

/-! What an instruction does, over all of them: it raises the fault of the table (spec/60_exceptions.md R230) and nothing
else, or it completes and writes only what is its own to write (spec/10_state.md, 20_memory.md section 4). -/

namespace Sys2Proof.Machine

variable (s : State) (x y : RegIdx)

/-! What each instruction runs -/

theorem exec_orReg : exec (.orReg x y) s = .next (s.setReg x (s.reg x ||| s.reg y)) := rfl

theorem exec_andReg : exec (.andReg x y) s = .next (s.setReg x (s.reg x &&& s.reg y)) := rfl

theorem exec_xorReg : exec (.xorReg x y) s = .next (s.setReg x (s.reg x ^^^ s.reg y)) := rfl

theorem exec_jpV0 (nnn : BitVec 12) : exec (.jpV0 nnn) s = .next (s.setPc (wideByte (s.reg 0) + addrImm nnn)) := rfl

theorem exec_ldF : exec (.ldF x) s = .next (s.setI (BitVec.ofNat 16 (Config.fontBase + 5 * (s.reg x).toNat))) := rfl

theorem exec_drw (n : Fin 16) :
    exec (.drw x y n) s = .next (s.guardAccess n.val (encodeWord (.drw x y n)) (s.drawAt x y n.val)) := rfl

theorem exec_ldVxDt : exec (.ldVxDt x) s = .next (s.setReg x s.dt) := rfl

theorem exec_ldVxK : exec (.ldVxK x) s = .next (s.pollKey x) := rfl

theorem exec_ldDtVx : exec (.ldDtVx x) s = .next (s.setDt (s.reg x)) := rfl

theorem exec_ldStVx : exec (.ldStVx x) s = .next (s.setSt (s.reg x)) := rfl

/-! The two outcomes -/

/-- What an instruction that raises nothing leaves as it was, and what the two writes to an address or a slot of the state's
own choosing put there: a store at I its bytes, a push the PC. -/
structure Completes (i : Instr) (s t : State) : Prop where
  regs : SameRegsBut (dests i) s t
  index : writesIndex i = false → t.i = s.i
  dt : (∀ x, i ≠ .ldDtVx x) → t.dt = s.dt
  st : (∀ x, i ≠ .ldStVx x) → t.st = s.st
  picture : writesPicture i = false → SamePicture s t
  stack : touchesStack i = false → SameStack s t
  slots : ∀ k (h : k < 16), t.stack[k]'h = s.stack[k]'h ∨ t.stack[k]'h = s.pc
  pc : movesPc i = false → t.pc = s.pc
  stored : ∃ bytes, bytes.length = storeLen i ∧ t.mem = s.mem.writeBytes s.i.toNat bytes
  quiet : Quiet s t

variable {s} {i : Instr} {t : State}

theorem Completes.of_onlyRegs (h : OnlyRegs (dests i) s t) (hmem : t.mem = s.mem) (hlen : storeLen i = 0) :
    Completes i s t := by
  obtain ⟨hregs, hi, hpc, ⟨hdt, hst⟩, ⟨hsp, hstack⟩, hfb, -, hquiet⟩ := h
  exact ⟨hregs, fun _ => hi, fun _ => hdt, fun _ => hst, fun _ => hfb, fun _ => ⟨hsp, hstack⟩,
    fun k hk => .inl (by rw [hstack]), fun _ => hpc, ⟨[], hlen.symm, hmem⟩, hquiet⟩

theorem Completes.of_onlyPc (h : OnlyPc s t) (hmem : t.mem = s.mem) (hmoves : movesPc i = true) (hlen : storeLen i = 0) :
    Completes i s t := by
  obtain ⟨hregs, hi, ⟨hdt, hst⟩, ⟨hsp, hstack⟩, hfb, -, hquiet⟩ := h
  exact ⟨fun r _ => hregs r List.not_mem_nil, fun _ => hi, fun _ => hdt, fun _ => hst, fun _ => hfb,
    fun _ => ⟨hsp, hstack⟩, fun k hk => .inl (by rw [hstack]),
    fun hstays => absurd (hmoves.symm.trans hstays) (by decide), ⟨[], hlen.symm, hmem⟩, hquiet⟩

/-- A draw: the picture, and the registers that are the instruction's own to write. -/
theorem Completes.of_draw
    (h : SameRegsBut (dests i) s t ∧ t.i = s.i ∧ t.pc = s.pc ∧ SameTimers s t ∧ SameStack s t ∧ SameMemory s t ∧ Quiet s t)
    (hmem : t.mem = s.mem) (hwrites : writesPicture i = true) (hlen : storeLen i = 0) : Completes i s t := by
  obtain ⟨hregs, hi, hpc, ⟨hdt, hst⟩, ⟨hsp, hstack⟩, -, hquiet⟩ := h
  exact ⟨hregs, fun _ => hi, fun _ => hdt, fun _ => hst, fun hstays => absurd (hwrites.symm.trans hstays) (by decide),
    fun _ => ⟨hsp, hstack⟩, fun k hk => .inl (by rw [hstack]), fun _ => hpc, ⟨[], hlen.symm, hmem⟩, hquiet⟩

theorem Completes.of_onlyI (h : OnlyI s t) (hmem : t.mem = s.mem) (hwrites : writesIndex i = true)
    (hlen : storeLen i = 0) : Completes i s t := by
  obtain ⟨hregs, hpc, ⟨hdt, hst⟩, ⟨hsp, hstack⟩, hfb, -, hquiet⟩ := h
  exact ⟨fun r _ => hregs r List.not_mem_nil, fun hstays => absurd (hwrites.symm.trans hstays) (by decide),
    fun _ => hdt, fun _ => hst, fun _ => hfb, fun _ => ⟨hsp, hstack⟩, fun k hk => .inl (by rw [hstack]), fun _ => hpc,
    ⟨[], hlen.symm, hmem⟩, hquiet⟩

theorem Completes.of_storeBytes {bytes : List Byte} (hlen : bytes.length = storeLen i) :
    Completes i s (s.storeBytes s.i.toNat bytes) := by
  obtain ⟨hregs, hi, hpc, ⟨hdt, hst⟩, hstack, hfb, hquiet⟩ := onlyMemory_storeBytes s s.i.toNat bytes
  exact ⟨fun r _ => hregs r List.not_mem_nil, fun _ => hi, fun _ => hdt, fun _ => hst, fun _ => hfb, fun _ => hstack,
    fun _ _ => .inl rfl, fun _ => hpc, ⟨bytes, hlen, rfl⟩, hquiet⟩

variable (s)

theorem Completes.of_setReg (b : Byte) (hdests : dests i = [x]) (hlen : storeLen i = 0) :
    Completes i s (s.setReg x b) :=
  .of_onlyRegs (hdests ▸ onlyRegs_setReg s x b) rfl hlen

theorem Completes.of_skipIf (c : Bool) (hmoves : movesPc i = true) (hlen : storeLen i = 0) :
    Completes i s (s.skipIf c) :=
  .of_onlyPc (onlyPc_skipIf s c) (by rw [skipIf_eq, State.mem_setPc]) hmoves hlen

/-- A pop that finds a return address. -/
theorem completes_popPc (op : Word) (h : s.sp.val ≠ 0) : Completes .ret s (s.popPc op) := by
  rw [popPc_pos s op (Nat.pos_of_ne_zero h)]
  exact ⟨fun _ _ => rfl, fun _ => rfl, fun _ => rfl, fun _ => rfl, fun _ => rfl, nofun, fun _ _ => .inl rfl, nofun,
    ⟨[], rfl, rfl⟩, ⟨rfl, rfl, rfl⟩, rfl⟩

/-- A push that finds room: the one slot it writes holds the PC. -/
theorem completes_pushPc (op target : Word) (nnn : BitVec 12) (h : s.sp.val ≠ 16) :
    Completes (.call nnn) s (s.pushPc op target) := by
  have hroom : s.sp.val < 16 := by have := s.sp.isLt; omega
  rw [pushPc_lt s op target hroom]
  refine ⟨fun _ _ => rfl, fun _ => rfl, fun _ => rfl, fun _ => rfl, fun _ => rfl, nofun, fun k hk => ?_, nofun,
    ⟨[], rfl, rfl⟩, ⟨rfl, rfl, rfl⟩, rfl⟩
  simp only [Vector.getElem_set]
  split
  · exact .inr rfl
  · exact .inl rfl

theorem completes_pollKey : Completes (.ldVxK x) s (s.pollKey x) := by
  cases h : firstKey s.port.key with
  | none => rw [pollKey_none s x h]; exact .of_onlyPc (onlyPc_setPc s _) rfl rfl rfl
  | some k => rw [pollKey_some s x k h]; exact .of_setReg s x _ rfl rfl

/-- A sprite changes the picture and VF, and nothing else. -/
theorem drawAt_frame (n : Nat) :
    SameRegsBut [vf] s (s.drawAt x y n) ∧ (s.drawAt x y n).i = s.i ∧ (s.drawAt x y n).pc = s.pc ∧
      SameTimers s (s.drawAt x y n) ∧ SameStack s (s.drawAt x y n) ∧ SameMemory s (s.drawAt x y n) ∧
      Quiet s (s.drawAt x y n) := by
  refine ⟨fun r hr => ?_, rfl, rfl, ⟨rfl, rfl⟩, ⟨rfl, rfl⟩, fun _ => rfl, ⟨rfl, rfl, rfl⟩, rfl⟩
  rw [State.drawAt, State.reg_setReg, if_neg (fun h => hr (List.mem_singleton.2 h)), State.reg_setFb]

/-- An instruction to which the table gives a fault raises it, and does nothing else. -/
theorem exec_of_faultIn_eq_some {cause : FaultCause} (h : faultIn s i = some cause) :
    exec i s = .next (s.raise cause (encodeWord i)) := by
  cases i with
  | ret =>
    obtain ⟨hempty, rfl⟩ := Option.ite_some_none_eq_some.1 ((faultIn_ret s).symm.trans h)
    rw [exec_ret, popPc_zero s _ hempty]
  | call nnn =>
    obtain ⟨hfull, rfl⟩ := Option.ite_some_none_eq_some.1 ((faultIn_call s nnn).symm.trans h)
    rw [exec_call, pushPc_full s _ _ hfull]
  | drw x y n =>
    obtain ⟨hout, rfl⟩ := Option.ite_some_none_eq_some.1 ((faultIn_drw s x y n).symm.trans h)
    rw [exec_drw, guardAccess_raise s _ _ _ hout]
  | ldB x =>
    obtain ⟨hout, rfl⟩ := Option.ite_some_none_eq_some.1 ((faultIn_ldB s x).symm.trans h)
    rw [exec_ldB, guardAccess_raise s _ _ _ hout]
  | ldMemVx x =>
    obtain ⟨hout, rfl⟩ := Option.ite_some_none_eq_some.1 ((faultIn_ldMemVx s x).symm.trans h)
    rw [exec_ldMemVx, guardAccess_raise s _ _ _ hout]
  | ldVxMem x =>
    obtain ⟨hout, rfl⟩ := Option.ite_some_none_eq_some.1 ((faultIn_ldVxMem s x).symm.trans h)
    rw [exec_ldVxMem, guardAccess_raise s _ _ _ hout]
  | _ => simp [faultIn, accessLen] at h

theorem not_of_ite_some_none_eq_none {α : Type} {p : Prop} [Decidable p] {a : α}
    (h : (if p then some a else none) = none) : ¬p := by
  simpa using h

/-- An instruction to which the table gives no fault completes. -/
theorem exec_of_faultIn_eq_none (h : faultIn s i = none) : ∃ t, exec i s = .next t ∧ Completes i s t := by
  cases i with
  | cls => exact ⟨_, exec_cls s, .of_draw (setFb_frame s Framebuffer.blank) rfl rfl rfl⟩
  | ret =>
    have hused := not_of_ite_some_none_eq_none ((faultIn_ret s).symm.trans h)
    exact ⟨_, exec_ret s, completes_popPc s _ hused⟩
  | call nnn =>
    have hroom := not_of_ite_some_none_eq_none ((faultIn_call s nnn).symm.trans h)
    exact ⟨_, exec_call s nnn, completes_pushPc s _ _ nnn hroom⟩
  | drw x y n =>
    have hin := not_of_ite_some_none_eq_none ((faultIn_drw s x y n).symm.trans h)
    rw [exec_drw, guardAccess_done s _ _ _ hin]
    exact ⟨_, rfl, .of_draw (drawAt_frame s x y n.val) rfl rfl rfl⟩
  | ldB x =>
    have hin := not_of_ite_some_none_eq_none ((faultIn_ldB s x).symm.trans h)
    rw [exec_ldB, guardAccess_done s _ _ _ hin]
    exact ⟨_, rfl, .of_storeBytes rfl⟩
  | ldMemVx x =>
    have hin := not_of_ite_some_none_eq_none ((faultIn_ldMemVx s x).symm.trans h)
    rw [exec_ldMemVx, guardAccess_done s _ _ _ hin]
    exact ⟨_, rfl, .of_storeBytes (length_regsUpTo s x)⟩
  | ldVxMem x =>
    have hin := not_of_ite_some_none_eq_none ((faultIn_ldVxMem s x).symm.trans h)
    rw [exec_ldVxMem, guardAccess_done s _ _ _ hin]
    obtain ⟨v, hv⟩ := loadRegs_frame s s.i.toNat (x.val + 1)
    exact ⟨_, rfl, .of_onlyRegs (onlyRegs_loadRegs s _ x) (by rw [hv]) rfl⟩
  | jp | jpV0 => exact ⟨_, rfl, .of_onlyPc (onlyPc_setPc s _) rfl rfl rfl⟩
  | seImm | sneImm | seReg | sneReg | skp | sknp => exact ⟨_, rfl, .of_skipIf s _ rfl rfl⟩
  | addReg => exact ⟨_, rfl, .of_onlyRegs (onlyRegs_resultThenFlag s _ _ _) rfl rfl⟩
  | sub | shr | subn | shl => exact ⟨_, rfl, .of_onlyRegs (onlyRegs_flagThenResult s _ _ _) rfl rfl⟩
  | ldI | addI | ldF => exact ⟨_, rfl, .of_onlyI (onlyI_setI s _) rfl rfl rfl⟩
  | ldVxK x => exact ⟨_, exec_ldVxK s x, completes_pollKey s x⟩
  | ldDtVx x =>
    exact ⟨_, exec_ldDtVx s x, fun _ _ => rfl, fun _ => rfl, fun h => absurd rfl (h x), fun _ => rfl, fun _ => rfl,
      fun _ => ⟨rfl, rfl⟩, fun _ _ => .inl rfl, fun _ => rfl, ⟨[], rfl, rfl⟩, ⟨rfl, rfl, rfl⟩, rfl⟩
  | ldStVx x =>
    exact ⟨_, exec_ldStVx s x, fun _ _ => rfl, fun _ => rfl, fun _ => rfl, fun h => absurd rfl (h x), fun _ => rfl,
      fun _ => ⟨rfl, rfl⟩, fun _ _ => .inl rfl, fun _ => rfl, ⟨[], rfl, rfl⟩, ⟨rfl, rfl, rfl⟩, rfl⟩
  | ldImm x | addImm x | ldReg x | orReg x | andReg x | xorReg x | rnd x | ldVxDt x =>
    exact ⟨_, rfl, .of_setReg s x _ rfl rfl⟩

variable (i)

/-- The two outcomes of an instruction. -/
theorem exec_cases :
    (∃ cause, faultIn s i = some cause ∧ exec i s = .next (s.raise cause (encodeWord i))) ∨
    (faultIn s i = none ∧ ∃ t, exec i s = .next t ∧ Completes i s t) := by
  cases h : faultIn s i with
  | none => exact .inr ⟨rfl, exec_of_faultIn_eq_none s h⟩
  | some cause => exact .inl ⟨cause, rfl, exec_of_faultIn_eq_some s h⟩

/-- Another KEY in the port. -/
def Port.setKey (k : BitVec 16) (p : Port) : Port := { p with key := k }

theorem withKey_eq_mapPort (k : BitVec 16) : s.withKey k = s.mapPort (.setKey k) := rfl

theorem ignoresEvent_setKey (k : BitVec 16) : IgnoresEvent (.setKey k) := fun _ _ => rfl

end Sys2Proof.Machine

namespace Sys2Proof

open Machine

/-- Settles O37 (60_exceptions.md sections 1 and 2): an instruction that the table gives a fault is the raise of it. -/
theorem faultEntryIsPrecise : Obligations.FaultEntryIsPrecise := by
  intro i s
  obtain ⟨cause, hfault, hexec⟩ | ⟨hok, t, hexec, hdone⟩ := exec_cases s i
  · refine ⟨_, hexec, ?_⟩
    rw [hfault]
    exact ⟨onlyLatch_raise s _ _, latched_raise s _ _⟩
  · refine ⟨t, hexec, ?_⟩
    rw [hok]
    exact hdone.quiet

/-- Settles O47 (10_state.md sections 1 and 2): a fault writes no register. -/
theorem onlyDestinationsAreWritten : Obligations.OnlyDestinationsAreWritten := by
  intro i s
  obtain ⟨cause, -, hexec⟩ | ⟨-, t, hexec, hdone⟩ := exec_cases s i
  · exact ⟨_, hexec, fun _ _ => rfl⟩
  · exact ⟨t, hexec, hdone.regs⟩

/-- Settles O48 (10_state.md sections 3 to 5): a fault writes none of these, and a store reaches its own bytes alone. -/
theorem onlyNamedInstructionsWrite : Obligations.OnlyNamedInstructionsWrite := by
  intro i s
  obtain ⟨cause, -, hexec⟩ | ⟨-, t, hexec, hdone⟩ := exec_cases s i
  · exact ⟨_, hexec, fun _ => rfl, fun _ => rfl, fun _ => rfl, fun _ => rfl, fun _ => ⟨rfl, rfl⟩, fun _ => rfl,
      fun _ _ => rfl⟩
  · obtain ⟨bytes, hlen, hmem⟩ := hdone.stored
    refine ⟨t, hexec, hdone.index, hdone.dt, hdone.st, hdone.picture, hdone.stack, hdone.pc, fun a ha => ?_⟩
    rw [State.readByte, hmem]
    exact Memory.read_writeBytes_outside s.mem _ bytes a (hlen ▸ ha)

/-- Settles O49 (50_host_interface.md section 2): another KEY is a change of the port that keeps RND and the event. -/
theorem onlyKeyInstructionsReadKeypad : Obligations.OnlyKeyInstructionsReadKeypad := by
  intro i s k hkey
  simp only [withKey_eq_mapPort]
  exact exec_mapPort s (ignoresEvent_setKey k) i (fun h => absurd (hkey.symm.trans h) (by decide)) fun _ _ _ => rfl

end Sys2Proof

/-! A step (spec/40_step_cycle.md): where it can end, what of the port it looks at, and where it leaves PC. -/

namespace Sys2Proof.Machine

/-- Where a step from `s` ends: one constructor per way through the phases. -/
inductive StepsTo (s : State) : State → Prop
  | halted (hhalt : s.halt = true) : StepsTo s s.begin
  | unfetchable (hrun : s.halt = false) (hend : s.fetchable = false) :
    StepsTo s (s.begin.raise .fetchOutOfRange 0x0000)
  | unknown (hrun : s.halt = false) (hfetch : s.fetchable = true) (hdecode : decodeWord s.fetchWord = none) :
    StepsTo s (s.begin.enter.reportUnknown s.fetchWord)
  | faulted {i : Instr} {cause : FaultCause} (hrun : s.halt = false) (hfetch : s.fetchable = true)
    (hdecode : decodeWord s.fetchWord = some i) (hfault : faultIn s.begin.enter i = some cause) :
    StepsTo s (s.begin.enter.raise cause (encodeWord i))
  | completed {i : Instr} {t : State} (hrun : s.halt = false) (hfetch : s.fetchable = true)
    (hdecode : decodeWord s.fetchWord = some i) (hok : faultIn s.begin.enter i = none)
    (hexec : exec i s.begin.enter = .next t) (hdone : Completes i s.begin.enter t) : StepsTo s t

variable (s : State)

/-- Every step ends in a next state, by one of the ways of `StepsTo`. -/
theorem exists_stepsTo : ∃ t, step s = .next t ∧ StepsTo s t := by
  obtain ⟨hhalt, hstep⟩ | ⟨hrun, hend, hstep⟩ | ⟨hrun, hfetch, hdecode, hstep⟩ | ⟨i, hrun, hfetch, hdecode, hstep⟩ :=
    step_cases s
  · exact ⟨_, hstep, .halted hhalt⟩
  · exact ⟨_, hstep, .unfetchable hrun hend⟩
  · exact ⟨_, hstep, .unknown hrun hfetch hdecode⟩
  · obtain ⟨cause, hfault, hexec⟩ | ⟨hok, t, hexec, hdone⟩ := exec_cases s.begin.enter i
    · exact ⟨_, hstep.trans hexec, .faulted hrun hfetch hdecode hfault⟩
    · exact ⟨t, hstep.trans hexec, .completed hrun hfetch hdecode hok hexec hdone⟩

theorem stepsTo_of_step {s t : State} (h : step s = .next t) : StepsTo s t := by
  obtain ⟨u, hstep, hu⟩ := exists_stepsTo s
  rwa [Host.Outcome.next.inj (h.symm.trans hstep)]

theorem obey_step {s t : State} {key : BitVec 16} {rnd : Byte} (h : step (s.present key rnd) = .next t) :
    s.obey (.step key rnd) = .next (.event t.port.event, t) := by
  rw [State.obey, h]

theorem exists_obey_eq_next (c : Command) : ∃ r t, s.obey c = .next (r, t) := by
  cases c with
  | reset => exact ⟨_, _, obey_reset s⟩
  | loadProgram image => exact ⟨_, _, obey_loadProgram s image⟩
  | step key rnd =>
    obtain ⟨t, hstep, -⟩ := exists_stepsTo (s.present key rnd)
    exact ⟨_, t, obey_step hstep⟩

theorem sameLatch_loadProgram (image : List Byte) : SameLatch s (s.loadProgram image).2 := by
  rw [State.loadProgram]
  split <;> exact ⟨rfl, rfl, rfl⟩

/-! The port of a whole step -/

theorem reportUnknown_mapPort {g : Port → Port} (hg : IgnoresEvent g) (op : Word) :
    (s.mapPort g).reportUnknown op = (s.reportUnknown op).mapPort g :=
  congrArg (fun p => { s with port := p }) (hg s.port (.unknown op s.pc)).symm

/-- A step sees nothing of a state but what its start leaves, so a change of the port at the start that keeps KEY, RND and
the event goes through the step. -/
theorem step_mapPort_begin {s u : State} {g : Port → Port} (hg : IgnoresEvent g) (hbegin : u.begin = s.begin.mapPort g)
    (hkey : (g s.port.begin).key = s.port.begin.key) (hrnd : (g s.port.begin).rnd = s.port.begin.rnd) :
    step u = mapNext (·.mapPort g) (step s) := by
  have hhalt := congrArg State.halt hbegin
  have hfetch := congrArg State.fetchable hbegin
  have hword : u.fetchWord = s.fetchWord := by
    show u.begin.fetchWord = s.fetchWord
    rw [hbegin]
    rfl
  obtain ⟨h, hstep⟩ | ⟨hrun, hend, hstep⟩ | ⟨hrun, hin, hnone, hstep⟩ | ⟨i, hrun, hin, hsome, hstep⟩ := step_cases s
  · rw [hstep, step_halted u (hhalt.trans h), hbegin]
    rfl
  · rw [hstep, step_unfetchable u (hhalt.trans hrun) (hfetch.trans hend), hbegin, raise_mapPort _ hg]
    rfl
  · rw [← hword] at hnone
    rw [hstep, step_unknown u (hhalt.trans hrun) (hfetch.trans hin) hnone, hword, hbegin]
    exact congrArg Host.Outcome.next (reportUnknown_mapPort s.begin.enter hg _)
  · rw [← hword] at hsome
    rw [hstep, step_decoded u i (hhalt.trans hrun) (hfetch.trans hin) hsome, hbegin]
    exact exec_mapPort s.begin.enter hg i (fun _ => hkey) fun _ _ _ => hrnd

/-- The samples still to come and the count of free ones, which no step looks at once it has begun. -/
def Port.setSupply (queue : List Sample) (drawn : Nat) (p : Port) : Port := { p with queue := queue, drawn := drawn }

theorem ignoresEvent_setSupply (queue : List Sample) (drawn : Nat) : IgnoresEvent (.setSupply queue drawn) :=
  fun _ _ => rfl

/-- Two steps that begin with the same engine, KEY and RND answer the same engine and event. -/
theorem step_of_begin_eq_setSupply {s u : State} {queue : List Sample} {drawn : Nat}
    (hbegin : u.begin = s.begin.mapPort (.setSupply queue drawn)) :
    ∃ t, step s = .next t ∧ step u = .next (t.mapPort (.setSupply queue drawn)) := by
  obtain ⟨t, hstep, -⟩ := exists_stepsTo s
  refine ⟨t, hstep, ?_⟩
  rw [step_mapPort_begin (ignoresEvent_setSupply queue drawn) hbegin rfl rfl, hstep]
  rfl

/-- Of the port that a step begins with, it writes the event alone. -/
theorem StepsTo.port_eq {s t : State} (h : StepsTo s t) : t.port = { s.port.begin with event := t.port.event } := by
  cases h with
  | completed _ _ _ _ _ hdone => rw [hdone.quiet.2]; rfl
  | _ => rfl

theorem begin_of_queue_eq_nil {s : State} (h : s.port.queue = []) :
    s.begin = (s.present (Config.freeKey s.port.drawn) (Config.freeRnd s.port.drawn)).begin.mapPort
      (.setSupply [] (s.port.drawn + 1)) := by
  simp only [State.begin, Port.begin, Port.next_of_empty s.port h, Port.drawnAfter, h]
  rfl

theorem toNat_jpV0_target (b : Byte) (nnn : BitVec 12) :
    (wideByte b + addrImm nnn).toNat = b.toNat + nnn.toNat := by
  have hb := b.isLt
  have hn := nnn.isLt
  rw [BitVec.toNat_add, toNat_wideByte, toNat_addrImm]
  omega

/-! PC over a step (spec/10_state.md section 3) -/

theorem firstKey_eq_none_iff (key : BitVec 16) : firstKey key = none ↔ key = 0 := by
  rw [firstKey_none]
  constructor
  · exact fun h => BitVec.eq_of_getLsbD_eq fun k hk => by rw [h k hk, BitVec.ofNat_eq_ofNat, BitVec.getLsbD_zero]
  · rintro rfl k -
    exact BitVec.getLsbD_zero

theorem pcAfter_of_faultIn_eq_some {i : Instr} {cause : FaultCause} (h : faultIn s i = some cause) (key : BitVec 16)
    (a : Nat) : pcAfter s key a i = a + 2 := by
  unfold pcAfter
  rw [if_pos (by rw [h]; rfl)]

section Pc

variable {s} {a : Nat} (hpc : s.pc.toNat = a + 2)
include hpc

/-- A skip where PC does not wrap. -/
theorem toNat_pc_skipIf_of_lt (hfits : a + 4 < 65536) (c : Bool) : (s.skipIf c).pc.toNat = if c then a + 4 else a + 2 := by
  rw [toNat_pc_skipIf, hpc, Nat.mod_eq_of_lt hfits]

/-- A poll leaves PC at the fetch address or after the instruction. -/
theorem toNat_pc_pollKey (x : RegIdx) : (s.pollKey x).pc.toNat = if s.port.key = 0 then a else a + 2 := by
  cases h : firstKey s.port.key with
  | none =>
    rw [pollKey_none s x h, State.pc_setPc, if_pos ((firstKey_eq_none_iff _).1 h), BitVec.toNat_sub_of_le]
    · rw [hpc]; rfl
    · rw [BitVec.le_def, hpc]; exact Nat.le_add_left 2 a
  | some k =>
    have hdown : s.port.key ≠ 0 := fun h0 => by rw [(firstKey_eq_none_iff _).2 h0] at h; cases h
    rw [pollKey_some s x k h, State.pc_setReg, if_neg hdown, hpc]

/-- An instruction fetched from `a` leaves PC where the table says. -/
theorem exists_exec_toNat_pc (hfits : a + 4 < 65536) (i : Instr) :
    ∃ t, exec i s = .next t ∧ t.pc.toNat = pcAfter s s.port.key a i := by
  obtain ⟨cause, hfault, hexec⟩ | ⟨hok, t, hexec, hdone⟩ := exec_cases s i
  · refine ⟨_, hexec, ?_⟩
    rw [pcAfter_of_faultIn_eq_some s hfault]
    exact hpc
  · unfold pcAfter
    rw [if_neg (by rw [hok]; decide)]
    cases i with
    | seImm x kk | seReg x y =>
      refine ⟨_, rfl, ?_⟩
      rw [toNat_pc_skipIf_of_lt hpc hfits]
      simp only [beq_iff_eq]
    | sneImm x kk | sneReg x y =>
      refine ⟨_, rfl, ?_⟩
      rw [toNat_pc_skipIf_of_lt hpc hfits]
      simp only [bne_iff_ne, ne_eq, ite_not]
    | skp x => exact ⟨_, exec_skp s x, toNat_pc_skipIf_of_lt hpc hfits _⟩
    | sknp x =>
      refine ⟨_, exec_sknp s x, ?_⟩
      rw [toNat_pc_skipIf_of_lt hpc hfits]
      cases h : s.keyDown (keyIndex (s.reg x)) with
      | true => exact (if_pos h).symm
      | false => exact (if_neg (Bool.not_eq_true _ ▸ h)).symm
    | jp nnn => exact ⟨_, exec_jp s nnn, toNat_addrImm nnn⟩
    | call nnn =>
      have hroom := not_of_ite_some_none_eq_none ((faultIn_call s nnn).symm.trans hok)
      refine ⟨_, exec_call s nnn, ?_⟩
      rw [pushPc_lt s _ _ (by have := s.sp.isLt; omega)]
      exact toNat_addrImm nnn
    | jpV0 nnn => exact ⟨_, exec_jpV0 s nnn, toNat_jpV0_target (s.reg 0) nnn⟩
    | ret =>
      have hused := Nat.pos_of_ne_zero (not_of_ite_some_none_eq_none ((faultIn_ret s).symm.trans hok))
      refine ⟨_, exec_ret s, ?_⟩
      rw [popPc_pos s _ hused]
      simp only [hused, dif_pos]
    | ldVxK x => exact ⟨_, exec_ldVxK s x, toNat_pc_pollKey hpc x⟩
    | _ => exact ⟨t, hexec, (congrArg BitVec.toNat (hdone.pc rfl)).trans hpc⟩

end Pc

end Sys2Proof.Machine

namespace Sys2Proof

open Machine

/-- Settles O32 (40_step_cycle.md section 1): the state that phases 1 to 4 leave is the begun and entered one. -/
theorem stepRunsDecodedInstruction : Obligations.StepRunsDecodedInstruction := fun s i hrun hfetch hdecode =>
  ⟨s.begin.enter, step_decoded s i hrun hfetch hdecode, toNat_pc_enter s hfetch, toNat_timerTick s.dt,
    toNat_timerTick s.st, fun _ _ => rfl, rfl, ⟨rfl, rfl⟩, rfl, fun _ => rfl, ⟨rfl, rfl, rfl⟩, rfl, rfl, rfl, rfl⟩

/-- Settles O31 (40_step_cycle.md phase 3): the tick is done on entry, and nothing later writes a timer but Fx15 and Fx18. -/
theorem timersTickOncePerStep : Obligations.TimersTickOncePerStep := by
  intro s hrun hfetch
  obtain ⟨t, hstep, hto⟩ := exists_stepsTo s
  refine ⟨t, hstep, ?_⟩
  cases hto with
  | halted hhalt => rw [hrun] at hhalt; cases hhalt
  | unfetchable _ hend => rw [hfetch] at hend; cases hend
  | unknown | faulted => exact ⟨fun _ => toNat_timerTick s.dt, fun _ => toNat_timerTick s.st⟩
  | completed _ _ hdecode _ _ hdone =>
    refine ⟨fun hother => ?_, fun hother => ?_⟩
    · rw [hdone.dt fun x hi => hother x (hi ▸ hdecode)]
      exact toNat_timerTick s.dt
    · rw [hdone.st fun x hi => hother x (hi ▸ hdecode)]
      exact toNat_timerTick s.st

/-- Settles O34 (60_exceptions.md section 3): a word that no row admits does not decode, so the step only enters and
reports. -/
theorem unknownOpcodeIsReported : Obligations.UnknownOpcodeIsReported := by
  intro s hrun hfetch hword
  have hdecode : decodeWord s.fetchWord = none :=
    Option.not_isSome_iff_eq_none.1 (by rw [isSome_decodeWord, hword]; decide)
  exact ⟨_, step_unknown s hrun hfetch hdecode, rfl, toNat_pc_enter s hfetch, toNat_timerTick s.dt, toNat_timerTick s.st,
    fun _ _ => rfl, rfl, ⟨rfl, rfl⟩, rfl, fun _ => rfl, rfl, rfl, rfl⟩

/-- Settles O36 (60_exceptions.md section 2): a halted step only samples its inputs. -/
theorem haltedStepChangesNothing : Obligations.HaltedStepChangesNothing := fun s hhalt =>
  ⟨_, step_halted s hhalt, rfl, rfl⟩

/-- Settles O38 (60_exceptions.md section 2): a load writes memory alone, a halted step its inputs alone, and `reset` puts
the latch at its reset value. -/
theorem onlyResetLeavesHalt : Obligations.OnlyResetLeavesHalt := fun s hhalt =>
  ⟨fun image => ⟨_, _, obey_loadProgram s image, sameLatch_loadProgram s image⟩,
    fun key rnd => ⟨_, obey_step (step_halted (s.present key rnd) hhalt), rfl⟩,
    ⟨_, obey_reset s, rfl, rfl, rfl⟩⟩

/-- Settles O39 (40_step_cycle.md phase 5): each of the ways through a step ends in a next state, and so does a command. -/
theorem everyStepAnswersNext : Obligations.EveryStepAnswersNext :=
  ⟨fun s => (exists_stepsTo s).imp fun _ h => h.1, exists_obey_eq_next⟩

/-- Settles O40 (10_state.md section 3): the instruction runs with the fetch address plus 2, and no sum wraps. -/
theorem pcMovesByTheTable : Obligations.PcMovesByTheTable := by
  intro s i hrun hfetch hdecode
  have hin := (fetchable_iff s).1 hfetch
  obtain ⟨t, hexec, hpc⟩ := exists_exec_toNat_pc (toNat_pc_enter s hfetch) (by omega) i
  exact ⟨t, (step_decoded s i hrun hfetch hdecode).trans hexec, hpc⟩

/-- Settles O50 (50_host_interface.md section 1): steps that begin with the same engine, KEY and RND differ at most in the
samples still to come, and the port keeps those. -/
theorem stepDependsOnStateAndSample : Obligations.StepDependsOnStateAndSample := by
  refine ⟨fun s p key rnd => ?_, fun s hempty => ?_⟩
  · have hbegin : (({ s with port := p } : State).present key rnd).begin =
      (s.present key rnd).begin.mapPort (.setSupply p.queue p.drawn) := rfl
    obtain ⟨t, hstep, hstep'⟩ := step_of_begin_eq_setSupply hbegin
    refine ⟨t, _, hstep, hstep', rfl, rfl, ?_, rfl⟩
    rw [(stepsTo_of_step hstep).port_eq]
    rfl
  · obtain ⟨u, hstep, hstep'⟩ := step_of_begin_eq_setSupply (begin_of_queue_eq_nil hempty)
    exact ⟨_, u, hstep', hstep, rfl, rfl, rfl⟩

end Sys2Proof

/-! Invariants: the canonical form of memory (spec/20_memory.md), the bounds of PC and of the return addresses
(10_state.md section 3), and the truth of the fault latch (60_exceptions.md section 1). -/

namespace Sys2Proof.Machine

variable {s t : State} {i : Instr}

/-! Memory -/

/-- A store that raises nothing ends inside memory (spec/20_memory.md R58). -/
theorem storeLen_of_faultIn_eq_none (h : faultIn s i = none) :
    storeLen i = 0 ∨ s.i.toNat + storeLen i ≤ Config.memSize := by
  cases i with
  | ldB x =>
    have hin := not_of_ite_some_none_eq_none ((faultIn_ldB s x).symm.trans h)
    simp only [storeLen, Config.memSize]
    omega
  | ldMemVx x =>
    have hin := not_of_ite_some_none_eq_none ((faultIn_ldMemVx s x).symm.trans h)
    simp only [storeLen, Config.memSize]
    omega
  | _ => exact .inl rfl

theorem Completes.memoryCanonical (h : Completes i s t) (hok : faultIn s i = none) (hinv : MemoryCanonical s) :
    MemoryCanonical t := by
  obtain ⟨bytes, hlen, hmem⟩ := h.stored
  rw [MemoryCanonical, hmem]
  refine Memory.writeBytes_wf s.mem _ bytes hinv ?_
  rw [← List.length_eq_zero_iff, hlen]
  exact storeLen_of_faultIn_eq_none hok

theorem StepsTo.memoryCanonical (h : StepsTo s t) (hinv : MemoryCanonical s) : MemoryCanonical t := by
  cases h with
  | completed _ _ _ hok _ hdone => exact hdone.memoryCanonical hok hinv
  | _ => exact hinv

theorem memoryCanonical_loadProgram (image : List Byte) (hinv : MemoryCanonical s) :
    MemoryCanonical (s.loadProgram image).2 := by
  rcases Nat.lt_or_ge 3584 image.length with hlong | hfits
  · rw [loadProgram_overflow s hlong]
    exact hinv
  · rw [loadProgram_ok s hfits]
    exact Memory.writeBytes_wf s.mem _ image hinv (.inr (Nat.add_le_add_left hfits Config.progBase))

/-! The cells of a canonical memory are what it reads as, so it is the sorted list of them -/

theorem Memory.read_of_mem {m : Memory} (hm : m.wf) {a : Nat} {b : Byte} (h : (a, b) ∈ m) : m.read a = b := by
  obtain ⟨hsorted, -⟩ := hm
  induction m with
  | nil => cases h
  | cons c rest ih =>
    obtain ⟨k, d⟩ := c
    obtain ⟨hfirst, hrest⟩ := List.pairwise_cons.1 hsorted
    rw [Memory.read]
    rcases List.mem_cons.1 h with heq | htail
    · cases heq
      exact if_pos rfl
    · rw [if_neg (Nat.ne_of_lt (hfirst _ htail)), ih htail hrest]

theorem Memory.mem_of_read {m : Memory} {a : Nat} (h : m.read a ≠ resetByte a) : (a, m.read a) ∈ m := by
  induction m with
  | nil => exact absurd rfl h
  | cons c rest ih =>
    obtain ⟨k, d⟩ := c
    rw [Memory.read] at h ⊢
    split at h
    · subst ‹k = a›
      rw [if_pos rfl]
      exact List.mem_cons_self
    · rw [if_neg ‹_›]
      exact List.mem_cons_of_mem _ (ih h)

/-- The cells of a canonical memory: the addresses that read as something else than their reset contents. -/
theorem Memory.mem_iff {m : Memory} (hm : m.wf) (a : Nat) (b : Byte) :
    (a, b) ∈ m ↔ m.read a = b ∧ b ≠ resetByte a := by
  constructor
  · exact fun h => ⟨Memory.read_of_mem hm h, (hm.2 _ h).2⟩
  · rintro ⟨rfl, hne⟩
    exact Memory.mem_of_read hne

theorem Memory.nodup {m : Memory} (hm : m.wf) : m.Nodup :=
  show m.Pairwise (· ≠ ·) from hm.1.imp fun hlt heq => Nat.ne_of_lt hlt (congrArg Prod.fst heq)

/-- Two canonical memories with the same reads hold the same cells, in the one order that addresses allow. -/
theorem Memory.eq_of_read_eq {m n : Memory} (hm : m.wf) (hn : n.wf) (h : ∀ a, m.read a = n.read a) : m = n := by
  have hperm : m.Perm n := by
    rw [List.perm_ext_iff_of_nodup (Memory.nodup hm) (Memory.nodup hn)]
    rintro ⟨a, b⟩
    rw [Memory.mem_iff hm, Memory.mem_iff hn, h]
  exact hperm.eq_of_pairwise (fun p q _ _ hpq hqp => absurd hpq (Nat.lt_asymm hqp)) hm.1 hn.1

/-! PC and the return addresses -/

/-- The largest PC is 0x0FF + 0xFFF, after a Bnnn (spec/10_state.md R22). -/
theorem pcAfter_le (hinv : PcBounded s) (key : BitVec 16) {a : Nat} (ha : a + 1 ≤ 4095) (i : Instr) :
    pcAfter s key a i ≤ 0x10FE := by
  obtain ⟨-, hstack⟩ := hinv
  unfold pcAfter
  split
  · omega
  · cases i with
    | seImm | sneImm | seReg | sneReg | skp | sknp | ldVxK => dsimp only; split <;> omega
    | jp nnn | call nnn => have := nnn.isLt; dsimp only; omega
    | jpV0 nnn =>
      have := nnn.isLt
      have := (s.reg 0).isLt
      dsimp only
      omega
    | ret =>
      dsimp only
      split
      · exact Nat.le_trans (hstack _ _) (by decide)
      · omega
    | _ => dsimp only; omega

theorem StepsTo.pcBounded (h : StepsTo s t) (hinv : PcBounded s) : PcBounded t := by
  obtain ⟨hpcs, hstack⟩ := hinv
  have hreturn : s.fetchable = true → s.begin.enter.pc.toNat ≤ 0x1000 := fun hfetch => by
    have := (fetchable_iff s).1 hfetch
    rw [toNat_pc_enter s hfetch]
    omega
  cases h with
  | halted | unfetchable => exact ⟨hpcs, hstack⟩
  | unknown _ hfetch | faulted _ hfetch => exact ⟨Nat.le_trans (hreturn hfetch) (by decide), hstack⟩
  | @completed i t _ hfetch _ _ hexec hdone =>
    have ha := (fetchable_iff s).1 hfetch
    refine ⟨?_, fun k hk => ?_⟩
    · obtain ⟨u, hexec', hpc⟩ := exists_exec_toNat_pc (toNat_pc_enter s hfetch) (by omega) i
      rw [Host.Outcome.next.inj (hexec.symm.trans hexec'), hpc]
      exact pcAfter_le (s := s.begin.enter) ⟨Nat.le_trans (hreturn hfetch) (by decide), hstack⟩ _ ha i
    · rcases hdone.slots k hk with hkept | hpushed
      · rw [hkept]; exact hstack k hk
      · rw [hpushed]; exact hreturn hfetch

/-! The latch -/

/-- A truthful latch of an engine that runs records nothing. -/
theorem LatchTruthful.of_running (h : LatchTruthful s) (hrun : s.halt = false) :
    s.faultCause = .none ∧ s.faultOpcode = 0x0000 := by
  unfold LatchTruthful at h
  split at h
  case h_1 hcause => exact ⟨hcause, h.2⟩
  all_goals
    obtain ⟨hhalt, -⟩ := h
    rw [hrun] at hhalt
    cases hhalt

/-- A step of a running engine that raises nothing leaves the latch recording nothing. -/
theorem LatchTruthful.of_sameLatch (h : LatchTruthful s) (hrun : s.halt = false) (hsame : SameLatch s t) :
    LatchTruthful t := by
  obtain ⟨hcause, hopcode⟩ := h.of_running hrun
  obtain ⟨hhalt', hcause', hopcode'⟩ := hsame
  unfold LatchTruthful
  rw [hcause'.trans hcause]
  exact ⟨hhalt'.trans hrun, hopcode'.trans hopcode⟩

/-- An instruction raises one of the three causes that name it. -/
theorem cause_of_faultIn_eq_some {cause : FaultCause} (h : faultIn s i = some cause) :
    cause = .stackOverflow ∨ cause = .stackUnderflow ∨ cause = .memOutOfRange := by
  unfold faultIn at h
  split at h
  all_goals
    obtain ⟨-, rfl⟩ := Option.ite_some_none_eq_some.1 h
    simp

/-- A raise leaves the condition it was made for as it was, and its opcode is the instruction's own. -/
theorem latchTruthful_raise {cause : FaultCause} (h : faultIn s i = some cause) :
    LatchTruthful (s.raise cause (encodeWord i)) := by
  have hstory : ∃ ins, decodeWord (encodeWord i) = some ins ∧ faultIn s ins = some cause :=
    ⟨i, decodeWord_encodeWord i, h⟩
  rcases cause_of_faultIn_eq_some h with rfl | rfl | rfl <;> exact ⟨rfl, hstory⟩

theorem StepsTo.latchTruthful (h : StepsTo s t) (hinv : LatchTruthful s) : LatchTruthful t := by
  cases h with
  | halted => exact hinv
  | unfetchable _ hend => exact ⟨rfl, rfl, (fetchable_eq_false_iff s).1 hend⟩
  | unknown hrun => exact hinv.of_sameLatch hrun ⟨rfl, rfl, rfl⟩
  | faulted _ _ _ hfault => exact latchTruthful_raise hfault
  | completed hrun _ _ _ _ hdone => exact hinv.of_sameLatch hrun hdone.quiet.1

/-! All of them -/

theorem StepsTo.engineInv (h : StepsTo s t) (hinv : EngineInv s) : EngineInv t := by
  obtain ⟨hmem, hpc, hlatch⟩ := hinv
  exact ⟨h.memoryCanonical hmem, h.pcBounded hpc, h.latchTruthful hlatch⟩

theorem engineInv_reset : EngineInv State.reset :=
  ⟨Memory.nil_wf, ⟨by decide, by decide⟩, rfl, rfl⟩

/-- A load writes memory alone, so it keeps what the other two say. -/
theorem engineInv_loadProgram (image : List Byte) (hinv : EngineInv s) : EngineInv (s.loadProgram image).2 := by
  obtain ⟨hmem, hpc, hlatch⟩ := hinv
  refine ⟨memoryCanonical_loadProgram image hmem, ?_⟩
  rw [State.loadProgram]
  split <;> exact ⟨hpc, hlatch⟩

end Sys2Proof.Machine

namespace Sys2Proof

open Machine

/-- Settles O41 (20_memory.md section 4): a store that raises nothing lies inside memory, and nothing else writes there. -/
theorem stepKeepsMemoryCanonical : Obligations.StepKeepsMemoryCanonical := fun _ _ hinv hstep =>
  (stepsTo_of_step hstep).memoryCanonical hinv

/-- Settles O42 (10_state.md section 3): what is pushed is the address after a fetched instruction, at most 0x1000. -/
theorem stepKeepsPcBounded : Obligations.StepKeepsPcBounded := fun _ _ hinv hstep =>
  (stepsTo_of_step hstep).pcBounded hinv

/-- Settles O43 (60_exceptions.md section 1): a raise keeps what its condition depends on, and its opcode decodes back. -/
theorem stepKeepsLatchTruthful : Obligations.StepKeepsLatchTruthful := fun _ _ hinv hstep =>
  (stepsTo_of_step hstep).latchTruthful hinv

/-- Settles O44 (70_reset_and_hazards.md section 1): nothing is listed, pushed or latched at reset. -/
theorem resetMeetsInvariants : Obligations.ResetMeetsInvariants := engineInv_reset

/-- Settles O45 (50_host_interface.md section 4): the invariants do not look at the port, which `reset` keeps and a presented
sample changes. -/
theorem commandsKeepInvariants : Obligations.CommandsKeepInvariants := by
  intro s c hinv
  cases c with
  | reset => exact ⟨_, _, obey_reset s, engineInv_reset⟩
  | loadProgram image => exact ⟨_, _, obey_loadProgram s image, engineInv_loadProgram image hinv⟩
  | step key rnd =>
    obtain ⟨t, hstep, hto⟩ := exists_stepsTo (s.present key rnd)
    exact ⟨_, t, obey_step hstep, hto.engineInv hinv⟩

/-- Settles O46 (20_memory.md section 1): the cells are determined by the reads, and their order by the addresses. -/
theorem equalReadsAreEqualMemory : Obligations.EqualReadsAreEqualMemory := fun _ _ => Memory.eq_of_read_eq

end Sys2Proof

/-! Single instructions and commands: VF as an operand (spec/42_alu.md R153), a call and its return (41_control_flow.md),
code stored as data (20_memory.md section 6), keys and timers (45_keypad_timers.md), load and reset (50_host_interface.md). -/

namespace Sys2Proof.Machine

variable (s : State) (x : RegIdx)

/-! Keys -/

theorem firstKey_eq_some_iff (key : BitVec 16) (k : Nat) :
    firstKey key = some k ↔ key.getLsbD k = true ∧ k < 16 ∧ ∀ j < k, key.getLsbD j = false := by
  simp only [firstKey, List.find?_range_eq_some, List.mem_range, Bool.not_eq_true']

/-- The index of a key fits a byte. -/
theorem toNat_ofNat_of_firstKey {key : BitVec 16} {k : Nat} (h : firstKey key = some k) : (BitVec.ofNat 8 k).toNat = k := by
  obtain ⟨hlt, -⟩ := firstKey_some key k h
  rw [BitVec.toNat_ofNat]
  omega

theorem onlyRegs_pollKey {k : Nat} (h : firstKey s.port.key = some k) : OnlyRegs [x] s (s.pollKey x) := by
  rw [pollKey_some s x k h]
  exact onlyRegs_setReg s x _

/-! A call and its return -/

/-- The word of 00EE is what its two bytes form. -/
theorem decodeWord_ret_bytes : decodeWord (wordOfBytes 0x00 0xEE) = some .ret := by decide

/-! Load and reset -/

theorem reg_resetCommand (r : RegIdx) : s.resetCommand.reg r = 0 := by
  simp only [State.reg, State.resetCommand, State.reset, Vector.getElem_replicate]

theorem stack_resetCommand (k : Nat) (h : k < 16) : s.resetCommand.stack[k] = 0 := by
  simp only [State.resetCommand, State.reset, Vector.getElem_replicate]

theorem resetByte_font (k : Nat) : resetByte (Config.fontBase + k) = font.getD k 0 := by
  rw [resetByte, if_pos (Nat.le_add_right _ _), Nat.add_sub_cancel_left]

/-- Outside the 80 font bytes a reset byte is 0 (spec/10_state.md R35). -/
theorem resetByte_of_not_font {a : Nat} (h : a < 0x050 ∨ 0x0A0 ≤ a) : resetByte a = 0 := by
  rw [resetByte, Config.fontBase]
  split
  · have hlen : font.length = 80 := rfl
    exact List.getD_eq_default _ _ (by omega)
  · rfl

end Sys2Proof.Machine

namespace Sys2Proof

open Machine

/-- Settles O8 (42_alu.md, the table of VF as an operand): the rows are the general results at x or y = F. -/
theorem vfAsOperandTable : Obligations.VfAsOperandTable := by
  intro s x y hx hy
  obtain ⟨hsub, hsubn⟩ := subtractionFlagThenResult s x vf
  refine ⟨?_, ?_, ?_, ?_, ?_, ?_, ?_, ?_, ?_, ?_, ?_, ?_, ?_⟩
  · obtain ⟨t, hexec, hflag, hresult, -⟩ := addRegSumAndCarry s x vf
    exact ⟨t, hexec, hresult hx, hflag⟩
  · obtain ⟨t, hexec, hresult, hflag, -⟩ := hsub
    exact ⟨t, hexec, hresult, hflag hx⟩
  · obtain ⟨t, hexec, hresult, hflag, -⟩ := hsubn
    exact ⟨t, hexec, hresult, hflag hx⟩
  · obtain ⟨t, hexec, hflag, -⟩ := addRegSumAndCarry s vf y
    exact ⟨t, hexec, hflag⟩
  · obtain ⟨⟨t, hexec, hresult, -⟩, -⟩ := subtractionFlagThenResult s vf y
    exact ⟨t, hexec, hresult⟩
  · obtain ⟨-, t, hexec, hresult, -⟩ := subtractionFlagThenResult s vf y
    exact ⟨t, hexec, hresult⟩
  · obtain ⟨t, hexec, hflag, -⟩ := addRegSumAndCarry s vf vf
    exact ⟨t, hexec, by rw [hflag, Nat.two_mul]⟩
  · obtain ⟨⟨t, hexec, hresult, -⟩, -⟩ := subtractionFlagThenResult s vf vf
    exact ⟨t, hexec, by rw [hresult, Nat.add_sub_cancel]⟩
  · obtain ⟨-, t, hexec, hresult, -⟩ := subtractionFlagThenResult s vf vf
    exact ⟨t, hexec, by rw [hresult, Nat.add_sub_cancel]⟩
  · obtain ⟨⟨t, hexec, hresult, -⟩, -⟩ := shiftsCaptureLostBit s vf y
    exact ⟨t, hexec, hresult⟩
  · obtain ⟨-, t, hexec, hresult, -⟩ := shiftsCaptureLostBit s vf y
    exact ⟨t, hexec, by rw [hresult, Nat.mul_comm]⟩
  · obtain ⟨⟨t, hexec, hresult, -⟩, -⟩ := shiftsCaptureLostBit s vf vf
    exact ⟨t, hexec, hresult⟩
  · obtain ⟨-, t, hexec, hresult, -⟩ := shiftsCaptureLostBit s vf vf
    exact ⟨t, hexec, by rw [hresult, Nat.mul_comm]⟩

/-- Settles O4 (42_alu.md, the paragraphs of 8xy1 to 8xy3): one register write each, of the bitwise result. -/
theorem logicIsBitwiseAndKeepsVf : Obligations.LogicIsBitwiseAndKeepsVf := by
  refine fun s x y => ⟨⟨_, exec_orReg s x y, fun k _ => ?_, onlyRegs_setReg s x _⟩,
    ⟨_, exec_andReg s x y, fun k _ => ?_, onlyRegs_setReg s x _⟩,
    ⟨_, exec_xorReg s x y, fun k _ => ?_, onlyRegs_setReg s x _⟩⟩
  · rw [reg_setReg_self, BitVec.getLsbD_or]
  · rw [reg_setReg_self, BitVec.getLsbD_and]
  · rw [reg_setReg_self, BitVec.getLsbD_xor, Bool.bne_eq_xor]

/-- Settles O13 (41_control_flow.md, the paragraph of Bnnn): the sum of a byte and 12 bits does not wrap. -/
theorem jpV0AddsV0 : Obligations.JpV0AddsV0 := fun s nnn =>
  ⟨_, exec_jpV0 s nnn, toNat_jpV0_target (s.reg 0) nnn, onlyPc_setPc s _⟩

/-- Settles O16 (95_test_vectors.md E9): the call leaves the advanced PC on top of the stack, the return is fetched at nnn
and takes it from there, and the entry of its step touches neither. -/
theorem callThenRetComesBack : Obligations.CallThenRetComesBack := by
  intro s nnn hrun hfetch hdecode hroom hfits hfirst hsecond
  obtain ⟨hcall, -⟩ := callPushesOrOverflows s.begin.enter nnn
  obtain ⟨t, hexec, hsp, hpc, hslots, hregs, -, -, -, hmem, ⟨hhalt, -⟩, -⟩ := hcall hroom
  have hrun' : t.halt = false := hhalt.trans hrun
  have hfetch' : t.fetchable = true := (fetchable_iff t).2 (by omega)
  have hword : t.fetchWord = wordOfBytes 0x00 0xEE := by
    rw [State.fetchWord, hpc, hmem, hmem]
    exact congrArg₂ wordOfBytes hfirst hsecond
  have hdecode' : decodeWord t.fetchWord = some .ret := by rw [hword, decodeWord_ret_bytes]
  obtain ⟨hret, -⟩ := retPopsOrUnderflows t.begin.enter
  obtain ⟨u, hexec', hsp', hpc', -, hregs', -, -, -, -, ⟨hhalt', -⟩, -⟩ := hret (hsp.symm ▸ Nat.succ_pos _)
  have hback : u.sp.val = s.sp.val := hsp'.trans (congrArg (· - 1) hsp)
  have htop : u.pc = s.begin.enter.pc := hpc'.trans ((hslots _ _).trans (if_pos (congrArg (· - 1) hsp)))
  refine ⟨t, u, (step_decoded s _ hrun hfetch hdecode).trans hexec, (step_decoded t _ hrun' hfetch' hdecode').trans hexec',
    ?_, Fin.ext hback, fun r hr => (hregs' r hr).trans (hregs r hr), hhalt'.trans hrun'⟩
  rw [htop, toNat_pc_enter s hfetch]

/-- Settles O19 (43_index_memory.md, the paragraph of Fx29): the address of the last glyph, for Vx = 255, is 1355. -/
theorem ldFGivesGlyphAddress : Obligations.LdFGivesGlyphAddress := by
  refine fun s x => ⟨_, exec_ldF s x, ?_, onlyI_setI s _⟩
  have := (s.reg x).isLt
  rw [State.i_setI, BitVec.toNat_ofNat, Config.fontBase]
  omega

/-- Settles O23 (20_memory.md section 6): the fetch and Fx55 go through the one memory. -/
theorem storesAreFetchedAtOnce : Obligations.StoresAreFetchedAtOnce := by
  refine fun s x r hin hr => ⟨_, exec_ldMemVx_inRange s x hin, fun w hw => ⟨?_, ?_⟩⟩
  · rw [fetchable_iff, State.pc_setPc, hw]
    omega
  · have hnext : r.val + 1 < 16 := by have := x.isLt; omega
    have hhigh := readByte_storeBytes_regsUpTo s s.i.toNat (x := x) (r := r) (Nat.le_of_succ_le hr)
    have hlow := readByte_storeBytes_regsUpTo s s.i.toNat (x := x) (r := ⟨r.val + 1, hnext⟩) hr
    rw [toNat_fetchWord, State.pc_setPc, State.readByte_setPc, State.readByte_setPc, hw, hhigh, Nat.add_assoc, hlow]

/-- Settles O27 (45_keypad_timers.md, the paragraphs of Ex9E and ExA1): a skip each, on the key or on its negation. -/
theorem keySkipsTestSelectedKey : Obligations.KeySkipsTestSelectedKey := by
  refine fun s x => ⟨⟨_, exec_skp s x, onlyPc_skipIf s _, toNat_pc_skipIf s _⟩,
    ⟨_, exec_sknp s x, onlyPc_skipIf s _, (toNat_pc_skipIf s _).trans ?_⟩⟩
  simp only [Bool.not_eq_true', State.keyDown, val_keyIndex]
  cases s.port.key.getLsbD ((s.reg x).toNat % 16) <;> rfl

/-- Settles O28 (45_keypad_timers.md, the paragraph of Fx0A): one register write with a key down, one write of PC
with none. -/
theorem keyWaitTakesLeastKey : Obligations.KeyWaitTakesLeastKey := by
  refine fun s x => ⟨fun k hk hdown hleast => ?_, fun hnone => ?_⟩
  · have hfirst := (firstKey_eq_some_iff _ k).2 ⟨hdown, hk, hleast⟩
    refine ⟨_, exec_ldVxK s x, ?_, onlyRegs_pollKey s x hfirst⟩
    rw [pollKey_some s x k hfirst, reg_setReg_self, toNat_ofNat_of_firstKey hfirst]
  · refine ⟨_, exec_ldVxK s x, ?_⟩
    rw [pollKey_none s x ((firstKey_none _).2 hnone)]
    refine ⟨?_, onlyPc_setPc s _⟩
    exact congrArg BitVec.toNat (BitVec.sub_add_cancel s.pc 2)

/-- Settles O29 (95_test_vectors.md E10): the poll undoes the advance with no key down, and the tick has been done on
entry. -/
theorem keyPollStepHoldsPc : Obligations.KeyPollStepHoldsPc := by
  intro s x hrun hfetch hdecode
  have hstep := (step_decoded s _ hrun hfetch hdecode).trans (exec_ldVxK _ x)
  have hkey : s.begin.enter.port.key = s.port.next.key := rfl
  refine ⟨_, hstep, ?_⟩
  cases hfirst : firstKey s.begin.enter.port.key with
  | none =>
    rw [pollKey_none _ x hfirst]
    have hnone := (firstKey_eq_none_iff _).1 hfirst
    exact ⟨toNat_timerTick s.dt, toNat_timerTick s.st, fun _ _ => rfl, fun _ => ⟨BitVec.add_sub_cancel s.pc 2, rfl⟩,
      fun hdown => absurd hnone hdown⟩
  | some k =>
    rw [pollKey_some _ x k hfirst]
    obtain ⟨hregs, -⟩ := onlyRegs_setReg s.begin.enter x (BitVec.ofNat 8 k)
    obtain ⟨hdown, -⟩ := (firstKey_eq_some_iff _ k).1 hfirst
    refine ⟨toNat_timerTick s.dt, toNat_timerTick s.st, hregs, fun h0 => ?_, fun _ => ⟨toNat_pc_enter s hfetch, ?_⟩⟩
    · rw [hkey, (firstKey_eq_none_iff _).2 h0] at hfirst
      cases hfirst
    · rw [reg_setReg_self, toNat_ofNat_of_firstKey hfirst]
      exact hdown

/-- Settles O30 (45_keypad_timers.md, the paragraphs of Fx07, Fx15, Fx18): in a step the move runs on the ticked timers. -/
theorem timerMovesFollowTick : Obligations.TimerMovesFollowTick := by
  refine ⟨fun s x => ⟨?_, ?_, ?_⟩, fun s x hrun hfetch => ⟨fun hdecode => ?_, fun hdecode => ?_, fun hdecode => ?_⟩⟩
  · exact ⟨_, exec_ldVxDt s x, reg_setReg_self s x _, onlyRegs_setReg s x _⟩
  · exact ⟨_, exec_ldDtVx s x, rfl, rfl, fun _ _ => rfl, rfl, rfl, ⟨rfl, rfl⟩, rfl, fun _ => rfl, ⟨rfl, rfl, rfl⟩, rfl⟩
  · exact ⟨_, exec_ldStVx s x, rfl, rfl, fun _ _ => rfl, rfl, rfl, ⟨rfl, rfl⟩, rfl, fun _ => rfl, ⟨rfl, rfl, rfl⟩, rfl⟩
  · refine ⟨_, (step_decoded s _ hrun hfetch hdecode).trans (exec_ldVxDt _ x), ?_, toNat_timerTick s.dt⟩
    rw [reg_setReg_self]
    exact toNat_timerTick s.dt
  · exact ⟨_, (step_decoded s _ hrun hfetch hdecode).trans (exec_ldDtVx _ x), rfl, toNat_timerTick s.st⟩
  · exact ⟨_, (step_decoded s _ hrun hfetch hdecode).trans (exec_ldStVx _ x), rfl, toNat_timerTick s.dt⟩

/-- Settles O52 (50_host_interface.md section 1): loading is one store at the load address. -/
theorem loadProgramCopiesImage : Obligations.LoadProgramCopiesImage := fun s image hfits =>
  ⟨_, obey_loadProgram_ok s hfits, fun k hk => readByte_storeBytes_inside s _ image k hk,
    sameMemoryOutside_storeBytes s _ image, rfl⟩

/-- Settles O53 (70_reset_and_hazards.md section 1): the reset state behind the port as it was. -/
theorem resetLeavesResetValues : Obligations.ResetLeavesResetValues := fun s =>
  ⟨_, obey_reset s, rfl, reg_resetCommand s, rfl, stack_resetCommand s, rfl, rfl, rfl, pixel_blank, rfl, rfl, rfl,
    fun k _ => resetByte_font k, fun _ _ hout => resetByte_of_not_font hout, rfl⟩

end Sys2Proof

/-! The sprite and the screen (spec/44_display.md): what Dxyn does to a pixel and to VF, and the order in
which the host is given the pixels. -/

namespace Sys2Proof.Machine

variable (s : State) (x y : RegIdx)

theorem Memory.readBytes_eq_map (m : Memory) (a n : Nat) :
    m.readBytes a n = (List.range n).map fun r => m.read (a + r) := by
  apply List.ext_getElem
  · simp
  · intro k hk hk'
    rw [Memory.getElem_readBytes, List.getElem_map, List.getElem_range]

/-- The rows of the sprite at I, top first. -/
def State.spriteRows (s : State) (n : Nat) : List Byte := (List.range n).map fun r => s.readByte (s.i.toNat + r)

theorem State.spriteRows_congr {s u : State} (hi : u.i = s.i) (hmem : SameMemory s u) (n : Nat) :
    u.spriteRows n = s.spriteRows n := by
  simp only [State.spriteRows, hi, hmem _]

/-- The bit of the sprite that Dxyn draws onto a pixel. -/
def State.spriteBit (s : State) (x y : RegIdx) (n : Nat) (xx : Fin 64) (yy : Fin 32) : Bool :=
  spriteAt (s.reg x).toNat (s.reg y).toNat (s.spriteRows n) xx yy

theorem State.spriteBit_congr {s u : State} {x y : RegIdx} (hi : u.i = s.i) (hmem : SameMemory s u)
    (hx : u.reg x = s.reg x) (hy : u.reg y = s.reg y) (n : Nat) : u.spriteBit x y n = s.spriteBit x y n := by
  funext xx yy
  rw [State.spriteBit, State.spriteBit, hx, hy, State.spriteRows_congr hi hmem]

theorem flagByte_eq_one_iff (c : Bool) : flagByte c = 1 ↔ c = true := by
  cases c <;> decide

theorem flagByte_eq_zero_iff (c : Bool) : flagByte c = 0 ↔ c = false := by
  cases c <;> decide

section Drawn

variable {n : Nat} (hn : n ≤ 32)
include hn

/-- Drawing XORs the sprite into the picture, pixel by pixel. -/
theorem pixel_drawAt (xx : Fin 64) (yy : Fin 32) :
    Framebuffer.pixel (s.drawAt x y n).fb xx yy = (Framebuffer.pixel s.fb xx yy ^^ s.spriteBit x y n xx yy) := by
  rw [State.drawAt, State.fb_setReg, State.fb_setFb, drawSprite_pixel _ _ _ _ (by rwa [Memory.length_readBytes]),
    Memory.readBytes_eq_map]
  rfl

/-- VF is 1 exactly when a 1 bit lands on a lit pixel. -/
theorem reg_vf_drawAt_eq_one_iff :
    (s.drawAt x y n).reg vf = 1 ↔
      ∃ xx yy, s.spriteBit x y n xx yy = true ∧ Framebuffer.pixel s.fb xx yy = true := by
  rw [State.drawAt, reg_setReg_self, flagByte_eq_one_iff,
    drawSprite_collision _ _ _ _ (by rwa [Memory.length_readBytes]), Memory.readBytes_eq_map]
  exact or_iff_right Bool.false_ne_true

end Drawn

/-- VF holds a flag after a draw. -/
theorem reg_vf_drawAt_eq_zero {n : Nat} (h : (s.drawAt x y n).reg vf ≠ 1) : (s.drawAt x y n).reg vf = 0 := by
  rw [State.drawAt, reg_setReg_self, Ne, flagByte_eq_one_iff, Bool.not_eq_true] at h
  rw [State.drawAt, reg_setReg_self, flagByte_eq_zero_iff, h]

/-- In range, Dxyn draws. -/
theorem exec_drw_inRange {n : Fin 16} (h : ¬(0 < n.val ∧ 4095 < s.i.toNat + n.val - 1)) :
    exec (.drw x y n) s = .next (s.drawAt x y n.val) := by
  rw [exec_drw, guardAccess_done s _ _ _ h]

/-! The pixels in order -/

/-- The rows one after the other, as one vector. -/
theorem pixels_eq_flatten : s.pixels = s.fb.flatten.toList := by
  rw [Vector.flatten, Vector.toList_mk, Array.toList_flatten, Array.toList_map, List.map_map]
  rfl

end Sys2Proof.Machine

namespace Sys2Proof

open Machine

/-- Settles O25 (44_display.md, the paragraph of Dxyn): a lit pixel goes off exactly where a 1 bit lands on it. -/
theorem drwXorsSpriteIntoPixels : Obligations.DrwXorsSpriteIntoPixels := by
  refine fun s x y n => ⟨fun hin => ?_, fun hout => ?_⟩
  · have hn : n.val ≤ 32 := by have := n.isLt; omega
    have hpixel := pixel_drawAt s x y hn
    have hone := reg_vf_drawAt_eq_one_iff s x y hn
    refine ⟨_, exec_drw_inRange s x y hin, hpixel, ?_, drawAt_frame s x y n.val⟩
    by_cases hvf : (s.drawAt x y n.val).reg vf = 1
    · obtain ⟨xx, yy, hbit, hlit⟩ := hone.1 hvf
      exact .inl ⟨hvf, xx, yy, hlit, by rw [hpixel, hbit, hlit]; rfl⟩
    · refine .inr ⟨reg_vf_drawAt_eq_zero s x y hvf, fun xx yy hlit => ?_⟩
      have hbit : s.spriteBit x y n.val xx yy = false :=
        Bool.eq_false_of_not_eq_true fun hbit => hvf (hone.2 ⟨xx, yy, hbit, hlit⟩)
      rw [hpixel, hbit, hlit]
      rfl
  · rw [exec_drw, guardAccess_raise s _ _ _ hout]
    exact ⟨_, rfl, onlyLatch_raise s _ _, latched_raise s _ _⟩

/-- Settles O26 (44_display.md, the two properties of Dxyn): the second draw XORs the same bits in once more. -/
theorem drwTwiceRestoresPicture : Obligations.DrwTwiceRestoresPicture := by
  intro s t u x y n hin hdraw hfb hi hmem hx hy
  have hn : n.val ≤ 32 := by have := n.isLt; omega
  obtain rfl : s.drawAt x y n.val = t := Host.Outcome.next.inj ((exec_drw_inRange s x y hin).symm.trans hdraw)
  have hbits := State.spriteBit_congr hi hmem hx hy n.val
  have hone := reg_vf_drawAt_eq_one_iff u x y hn
  rw [hbits, hfb] at hone
  refine ⟨_, exec_drw_inRange u x y (by rwa [hi]), framebuffer_ext _ _ fun xx yy => ?_, ?_, fun hdark hlit => ?_⟩
  · rw [pixel_drawAt u x y hn, hfb, hbits, pixel_drawAt s x y hn, Bool.xor_assoc, Bool.xor_self, Bool.xor_false]
  · rw [hone]
    exact exists₂_congr fun _ _ => And.comm
  · obtain ⟨xx, yy, hlit⟩ := hlit
    refine hone.2 ⟨xx, yy, ?_, hlit⟩
    rwa [pixel_drawAt s x y hn, hdark, Bool.false_xor] at hlit

/-- Settles O55 (50_host_interface.md section 3): element `k` of the rows in order is in row `k / 64`, column `k % 64`. -/
theorem pixelsAreRowMajor : Obligations.PixelsAreRowMajor := by
  intro s
  rw [pixels_eq_flatten]
  refine ⟨by rw [Vector.length_toList], fun xx yy => ?_⟩
  have hlt : yy.val * 64 + xx.val < 32 * 64 := by have := xx.isLt; have := yy.isLt; omega
  have hrow : (yy.val * 64 + xx.val) / 64 = yy.val := by have := xx.isLt; omega
  have hcol : (yy.val * 64 + xx.val) % 64 = xx.val := by have := xx.isLt; omega
  rw [Vector.getElem?_toList, Vector.getElem?_eq_getElem hlt, Vector.getElem_flatten]
  simp only [hrow, hcol, Framebuffer.pixel]

end Sys2Proof
